-- ==== Sys2Proof/Word.lean ====
section
/-! DEFINITION. The block's words (spec/00_scope.md R6, R7; spec/10_state.md R20) and the byte order of a command
(spec/30_encoding.md R65). -/

namespace Sys2Proof

/-- One byte: a byte of a sequence (R16), and the CRC accumulator (R27). -/
abbrev Byte := BitVec 8

/-- A 32-bit host register or command word (R6 "host register width", R60). -/
abbrev Word := BitVec 32

/-- A 64-bit register, `OPA` or `RES` (R6, R23, R24). -/
abbrev DWord := BitVec 64

/-- The byte order a B2U or U2B command names (R65): `BE = 0` is little-endian, `BE = 1` big-endian. -/
inductive ByteOrder where
  /-- First byte least significant (R65, the source's "little"). -/
  | little
  /-- First byte most significant (R65). -/
  | big
  deriving DecidableEq, Repr

end Sys2Proof
end

