-- ==== Sys2Proof/Machine/Numeric.lean ====
section
/-! DEFINITION. The spec's numeric primitives (spec/00_scope.md R8, R12 to R16): sign reading and wrapping, exact values
`num * 2^exp`, IEEE binary64 decode and encode, rounding, and byte sequences in a 64-bit register. -/

namespace Sys2Proof.Machine

/-- `sext_N(p)`: the `N`-bit pattern read as two's complement (R8). -/
def sext {n : Nat} (p : BitVec n) : Int := p.toInt

/-- `wrap_N(x) = x mod 2^N`, as an `N`-bit pattern (R8). -/
def wrap (n : Nat) (x : Int) : BitVec n := BitVec.ofInt n x

/-- `zext_N(p)`: the pattern with zeros above (R8). -/
def zext (n : Nat) {m : Nat} (p : BitVec m) : BitVec n := p.setWidth n

/-- An exact rational `num * 2^exp` (R12). Every real value of the spec has this form: a binary64 value, a product with
`pow2`, a decoded LINEAR11 or ULINEAR16 value. -/
structure Scaled where
  num : Int
  exp : Int
  deriving DecidableEq, Repr

/-- The rational a `Scaled` stands for. Used by statements; no command computes with it. -/
def Scaled.value (q : Scaled) : ℚ := (q.num : ℚ) * (2 : ℚ) ^ q.exp

/-- `q * pow2(k)`, exact (R12): no overflow and no underflow. -/
def Scaled.mulPow2 (q : Scaled) (k : Int) : Scaled := { q with exp := q.exp + k }

/-- `E = 0x7FF`: an infinity or a NaN (R13). -/
def f64NonFinite (b : DWord) : Bool := b.extractLsb 62 52 == 0x7FF#11

/-- `(-1)^s * F` for the sign bit and a magnitude (R13). -/
def f64Signed (b : DWord) (magnitude : Nat) : Int :=
  if b.msb then -(magnitude : Int) else (magnitude : Int)

/-- `f64_val(b)` (R13): `none` for the non-finite patterns; a zero or subnormal is `(-1)^s * F * 2^-1074`, any other
`(-1)^s * (2^52 + F) * 2^(E - 1075)`. -/
def f64Val (b : DWord) : Option Scaled :=
  let e := (b.extractLsb 62 52).toNat
  let f := (b.extractLsb 51 0).toNat
  if f64NonFinite b then none
  else if e = 0 then some ⟨f64Signed b f, -1074⟩
  else some ⟨f64Signed b (2 ^ 52 + f), (e : Int) - 1075⟩

/-- `f64_enc(q)` (R14), for the values the decoders produce: `|num| < 2^53` and a result in binary64's normal range.
With `j` the index of the top bit of `|num|`, R14's `k` is `j + exp` and its `M` is `|num| * 2^(52 - j)`. -/
def f64Enc (q : Scaled) : DWord :=
  if q.num = 0 then 0
  else
    let s : BitVec 1 := if q.num < 0 then 1 else 0
    let j := q.num.natAbs.log2
    let k : Int := (j : Int) + q.exp
    let m := q.num.natAbs * 2 ^ (52 - j)
    s ++ wrap 11 (k + 1023) ++ BitVec.ofNat 52 (m - 2 ^ 52)

/-- `a / d` rounded to the nearest integer, a tie to the even one (R15), for `d > 0`. -/
def roundHalfEven (a : Int) (d : Nat) : Int :=
  let q := a / (d : Int)
  let r := a % (d : Int)
  if 2 * r < d then q
  else if (d : Int) < 2 * r then q + 1
  else if q % 2 = 0 then q
  else q + 1

/-- `rne(q)` (R15): the integer nearest to `q`, a tie to the even one. -/
def rne (q : Scaled) : Int :=
  if 0 ≤ q.exp then q.num * ((2 ^ q.exp.toNat : Nat) : Int)
  else roundHalfEven q.num (2 ^ (-q.exp).toNat)

/-- Byte `i` of a 64-bit register, `X[8i+7 : 8i]` (R16). -/
def byteAt (x : DWord) (i : Nat) : Byte := x.extractLsb' (8 * i) 8

/-- `bytes_L(X)`: the sequence `(X[7:0], ..., X[8L-1 : 8L-8])` (R16). -/
def bytesOf (len : Nat) (x : DWord) : List Byte := (List.range len).map (byteAt x)

/-- The sum of `b_i * 2^(8i)` over the sequence (R16, R83). -/
def bytesToNat : List Byte → Nat
  | [] => 0
  | b :: bs => b.toNat + 256 * bytesToNat bs

/-- `pack(b_0, ..., b_(L-1))`: the sequence in a 64-bit register, the first byte lowest, zeros above (R16). -/
def pack (bs : List Byte) : DWord := BitVec.ofNat 64 (bytesToNat bs)

/-- The `L` bytes of `t`, least significant first: `(t >> 8i) & 0xFF` (R84). -/
def natToBytes (len : Nat) (t : Nat) : List Byte :=
  (List.range len).map fun i => BitVec.ofNat 8 (t >>> (8 * i))

/-- A sequence in the order the `BE` bit names, given least significant byte first, and back (R65, R83, R84). -/
def inOrder (order : ByteOrder) (bs : List Byte) : List Byte :=
  match order with
  | .little => bs
  | .big => bs.reverse

end Sys2Proof.Machine
end

