-- ==== Sys2Proof/Syntax.lean ====
section
/-! DEFINITION. The twelve commands (spec/30_encoding.md R67, spec/opcode_table.json), with the operands of the command
syntax (R71): a width `n`, a byte count `L`, a byte order, a seed flag, an exponent `e`. -/

namespace Sys2Proof

/-- One command, as R71 writes it. Its data operand is always `OPA` (R73) and so is not written. -/
inductive Instr where
  /-- `NOP` (R80). -/
  | nop
  /-- `TWOS_DEC n` (R81). -/
  | twosDec (n : Nat)
  /-- `TWOS_ENC n` (R82). -/
  | twosEnc (n : Nat)
  /-- `B2U L, order` (R83). -/
  | b2u (len : Nat) (order : ByteOrder)
  /-- `U2B L, order` (R84). -/
  | u2b (len : Nat) (order : ByteOrder)
  /-- `LIN11_DEC` (R100). -/
  | lin11Dec
  /-- `LIN11_ENC e` (R101). -/
  | lin11Enc (e : Int)
  /-- `ULIN16_DEC e` (R122). -/
  | ulin16Dec (e : Int)
  /-- `ULIN16_ENC e` (R123). -/
  | ulin16Enc (e : Int)
  /-- `VMODE_DEC` (R120). -/
  | vmodeDec
  /-- `CRC_CLR` (R141). -/
  | crcClr
  /-- `CRC_UPD L` (`seed = false`) or `CRC_UPD L, S` (`seed = true`) (R142). -/
  | crcUpd (len : Nat) (seed : Bool)
  deriving DecidableEq, Repr

end Sys2Proof
end

