-- ==== Sys2Proof/WellFormed.lean ====
section
/-! DEFINITION. The operand ranges an assembler admits (spec/30_encoding.md R71: "An assembler refuses `L` outside 1..8,
`e` outside -16..15 and `n` outside 0..127"). -/

namespace Sys2Proof

/-- `n` fits the 7-bit field `N` (R61, R63). The widths that succeed are 1 to 64; the others are legal words that fail
with `BAD_WIDTH` (R69). -/
abbrev widthEncodable (n : Nat) : Bool := n ≤ 127

/-- `L` is in 1..8, the values of the field `NB` plus one (R64). -/
abbrev lengthEncodable (len : Nat) : Bool := 1 ≤ len && len ≤ 8

/-- `e` is in -16..15, the values of the 5-bit two's-complement field `EXP` (R62). -/
abbrev exponentEncodable (e : Int) : Bool := -16 ≤ e && e ≤ 15

/-- The command has a word: each of its operands is in its field's range (R71). -/
def Instr.wellFormed : Instr → Bool
  | .nop => true
  | .twosDec n => widthEncodable n
  | .twosEnc n => widthEncodable n
  | .b2u len _ => lengthEncodable len
  | .u2b len _ => lengthEncodable len
  | .lin11Dec => true
  | .lin11Enc e => exponentEncodable e
  | .ulin16Dec e => exponentEncodable e
  | .ulin16Enc e => exponentEncodable e
  | .vmodeDec => true
  | .crcClr => true
  | .crcUpd len _ => lengthEncodable len

end Sys2Proof
end

