-- ==== Sys2Proof/Decode.lean ====
section
/-! DEFINITION. Decoding a command word (spec/30_encoding.md R60 to R70) and encoding a command (R71). -/

namespace Sys2Proof

open Machine (sext wrap zext)

/-- The twelve operations the field `OP` selects (R67). -/
inductive Op where
  | nop | twosDec | twosEnc | b2u | u2b | lin11Dec | lin11Enc | ulin16Dec | ulin16Enc | vmodeDec | crcClr | crcUpd
  deriving DecidableEq, Repr

/-- Why a word is no command. Both are the error `ILLEGAL_CMD` (R68). -/
inductive DecodeError where
  /-- `OP` is 0xC to 0xF. -/
  | reservedOpcode
  /-- A reserved or unused field is nonzero. -/
  | reservedField
  deriving DecidableEq, Repr

/-- The opcode map (R67): one operation per value of `OP` below 0xC. -/
def Op.ofField (op : BitVec 4) : Option Op :=
  match op.toNat with
  | 0x0 => some .nop
  | 0x1 => some .twosDec
  | 0x2 => some .twosEnc
  | 0x3 => some .b2u
  | 0x4 => some .u2b
  | 0x5 => some .lin11Dec
  | 0x6 => some .lin11Enc
  | 0x7 => some .ulin16Dec
  | 0x8 => some .ulin16Enc
  | 0x9 => some .vmodeDec
  | 0xA => some .crcClr
  | 0xB => some .crcUpd
  | _ => none

/-- The column `match` of R67's table. -/
def Op.pattern : Op → Word
  | .nop => 0x00000000
  | .twosDec => 0x00000001
  | .twosEnc => 0x00000002
  | .b2u => 0x00000003
  | .u2b => 0x00000004
  | .lin11Dec => 0x00000005
  | .lin11Enc => 0x00000006
  | .ulin16Dec => 0x00000007
  | .ulin16Enc => 0x00000008
  | .vmodeDec => 0x00000009
  | .crcClr => 0x0000000A
  | .crcUpd => 0x0000000B

/-- The column `mask` of R67's table: 1 where the word must equal `match`. -/
def Op.mask : Op → Word
  | .nop => 0xFFFFFFFF
  | .twosDec => 0xFFFFF80F
  | .twosEnc => 0xFFFFF80F
  | .b2u => 0xFFFF0FFF
  | .u2b => 0xFFFF0FFF
  | .lin11Dec => 0xFFFFFFFF
  | .lin11Enc => 0xFE0FFFFF
  | .ulin16Dec => 0xFE0FFFFF
  | .ulin16Enc => 0xFE0FFFFF
  | .vmodeDec => 0xFFFFFFFF
  | .crcClr => 0xFFFFFFFF
  | .crcUpd => 0xFFFE8FFF

/-- `n = w[10:4]` (R63). -/
def widthField (w : Word) : Nat := (w.extractLsb 10 4).toNat

/-- `L = w[14:12] + 1` (R64). -/
def lengthField (w : Word) : Nat := (w.extractLsb 14 12).toNat + 1

/-- `BE = w[15]` (R65). -/
def orderField (w : Word) : ByteOrder := if w.getLsbD 15 then .big else .little

/-- `S = w[16]` (R66). -/
def seedField (w : Word) : Bool := w.getLsbD 16

/-- `e = sext_5(w[24:20])` (R62). -/
def exponentField (w : Word) : Int := sext (w.extractLsb 24 20)

/-- The command of an operation, with the fields its row uses (R67). -/
def Op.command (w : Word) : Op → Instr
  | .nop => .nop
  | .twosDec => .twosDec (widthField w)
  | .twosEnc => .twosEnc (widthField w)
  | .b2u => .b2u (lengthField w) (orderField w)
  | .u2b => .u2b (lengthField w) (orderField w)
  | .lin11Dec => .lin11Dec
  | .lin11Enc => .lin11Enc (exponentField w)
  | .ulin16Dec => .ulin16Dec (exponentField w)
  | .ulin16Enc => .ulin16Enc (exponentField w)
  | .vmodeDec => .vmodeDec
  | .crcClr => .crcClr
  | .crcUpd => .crcUpd (lengthField w) (seedField w)

/-- Decoding, total on every 32-bit word (R68). -/
def decode (w : Word) : Except DecodeError Instr :=
  match Op.ofField (w.extractLsb 3 0) with
  | none => .error .reservedOpcode
  | some op => if w &&& op.mask = op.pattern then .ok (op.command w) else .error .reservedField

/-- The host's reading of an opcode-table word: `nbits` bits of `w`, zero above, given to the decoder. Every command is one
32-bit word (R60), so a value that needs more bits is no command. -/
def decodeTableWord (nbits w : Nat) : Option Instr :=
  let v := w % 2 ^ nbits
  if v < 2 ^ 32 then (decode (BitVec.ofNat 32 v)).toOption else none

/-- `n << 4` (R71). -/
def widthBits (n : Nat) : Word := BitVec.ofNat 32 n <<< 4

/-- `(L-1) << 12` (R71). -/
def lengthBits (len : Nat) : Word := BitVec.ofNat 32 (len - 1) <<< 12

/-- `BE << 15` (R71). -/
def orderBits (order : ByteOrder) : Word :=
  match order with
  | .little => 0
  | .big => 1 <<< 15

/-- `S << 16` (R71). -/
def seedBits (seed : Bool) : Word := if seed then 1 <<< 16 else 0

/-- `wrap_5(e) << 20` (R71). -/
def exponentBits (e : Int) : Word := zext 32 (wrap 5 e) <<< 20

/-- The word of a command (R71). -/
def encode : Instr → Word
  | .nop => 0x0
  | .twosDec n => 0x1 ||| widthBits n
  | .twosEnc n => 0x2 ||| widthBits n
  | .b2u len order => 0x3 ||| lengthBits len ||| orderBits order
  | .u2b len order => 0x4 ||| lengthBits len ||| orderBits order
  | .lin11Dec => 0x5
  | .lin11Enc e => 0x6 ||| exponentBits e
  | .ulin16Dec e => 0x7 ||| exponentBits e
  | .ulin16Enc e => 0x8 ||| exponentBits e
  | .vmodeDec => 0x9
  | .crcClr => 0xA
  | .crcUpd len seed => 0xB ||| lengthBits len ||| seedBits seed

end Sys2Proof
end

