-- ==== Sys2Proof/Machine/Bus.lean ====
section
/-! DEFINITION. What passes over the block's one host port (spec/00_scope.md R5, R10; spec/20_memory.md R40 to R46) and the
reset input (spec/70_reset_and_hazards.md R190, R191): the model's input events and the bus answers. -/

namespace Sys2Proof.Machine

/-- One host access, at a byte offset counted from `BASE` (R10 writes every access as `BASE + off`) and of a size in bytes.
The offset may be negative or beyond the window, and the size any number: R42 says what the block does with those.
A write carries the 32 bits on the port; only an admitted write (4 bytes wide) has an effect, so nothing more is needed. -/
inductive HostAccess where
  /-- `MemRead(BASE + offset, size)`. -/
  | read (offset : Int) (size : Nat)
  /-- `MemWrite(BASE + offset, size, value)`. -/
  | write (offset : Int) (size : Nat) (value : Word)
  deriving DecidableEq, Repr

/-- How an access was answered. -/
inductive BusResponse where
  /-- An admitted read returned this value (R41, R43). -/
  | data (value : Word)
  /-- An admitted write was accepted, without an error response (R44). -/
  | written
  /-- The bus error response `ACCESS_FAULT` (R42, R175). -/
  | accessFault
  /-- The address is outside the window and the block did not decode it (R40): no answer of the block's. -/
  | notDecoded
  deriving DecidableEq, Repr, Inhabited

/-- One thing that happens to the block from outside. The block starts no activity of its own (R5). -/
inductive HostEvent where
  /-- A register access (R10). -/
  | access (a : HostAccess)
  /-- Reset is asserted (R190). -/
  | assertReset
  /-- Reset is released (R190). -/
  | releaseReset
  /-- A write of `value` to CMD, with reset asserted `delay` time units after the write was accepted (R191). -/
  | cmdWriteThenReset (value : Word) (delay : Nat)
  deriving DecidableEq, Repr

end Sys2Proof.Machine
end

