-- ==== Sys2Proof/Config.lean ====
section
/-! DEFINITION. What the spec leaves OPEN (spec/00_scope.md R6; spec/93_implementation_defined.md I9, I10, I20): constants
with no body, so that no proof can rest on a value of theirs. -/

namespace Sys2Proof.Config

/-- `BASE`, the address of the register window in the host's address space (R6, R40): OPEN, a parameter of the platform. -/
opaque base : Nat

/-- `LATENCY`, the time from a CMD write's acceptance to its completion (R6, R198): OPEN, finite, "not observable". -/
opaque latency : Nat

/-- The bus answer of the `k`-th CMD write that reset cut short: "no defined completion" (R191), "any value for the host's
bus response" (I20). -/
opaque abandonedResponse : Nat → Machine.BusResponse

end Sys2Proof.Config
end

