-- ==== Sys2Proof/Machine/State.lean ====
section
/-! DEFINITION. The state of the block (spec/10_state.md R20 to R33), plain data, and the reasons a step can stop. -/

namespace Sys2Proof.Machine

/-- The eight fields of R20, the level of the reset input (R190), and three fields of the model's own that stand for the
world outside the block (notes/assumptions 1 to 3); no command reads those. -/
structure State where
  /-- `CMD`, the last command word the host wrote (R21). -/
  cmd : Word
  /-- `STATUS.ERR`, the error code of the last command, 0 for success (R22). -/
  err : BitVec 4
  /-- `STATUS.STICKY`: some command has failed since the last clear (R22). -/
  sticky : Bool
  /-- `OPA`, the operand of the next command (R23). -/
  opa : DWord
  /-- `RES`, the primary result (R24). -/
  res : DWord
  /-- `RESE`, the exponent result (R25). -/
  rese : Word
  /-- `RESM`, the mantissa or raw result (R26). -/
  resm : Word
  /-- `CRC`, the running accumulator (R27). -/
  crc : Byte
  /-- Whether the reset input is asserted (R190). -/
  resetAsserted : Bool
  /-- The model's own: what the outside world does next, oldest first (R50, R199). DESIGN CHOICE, log entry 1. -/
  pending : List HostEvent
  /-- The model's own: the answers the host's accesses got, newest first (R199). DESIGN CHOICE, log entry 2. -/
  responses : List BusResponse
  /-- The model's own: how many open values were used so far (I20). DESIGN CHOICE, log entry 3. -/
  openCount : Nat
  deriving DecidableEq, Repr

/-- Faults: none. No rule of the spec stops the block: a command error is recorded in `STATUS` and the block goes on
(R173, R177), a bad access is answered on the bus (R175), and "the block has no halt" (R199). -/
inductive Fault where
  deriving DecidableEq, Repr

/-- Refusals. -/
inductive Refusal where
  /-- An arm of `exec` without a meaning yet. Raised by `exec` only; no arm raises it now. Safe. -/
  | notModelled (mnemonic : String)
  /-- A host access while reset is asserted: "the platform must not issue accesses to the window then" (R190), and "a model
  may reject such a run" (I19, treatment `refuse`). Raised by the host port, whatever the address (DESIGN CHOICE, log entry 8).
  Safe: the run stops. -/
  | accessDuringReset
  deriving DecidableEq, Repr

/-- The machine right after reset: every field of R20 as R33 gives it, reset released (R190: "After reset is released the
block is ready"), nothing pending and nothing answered (log entries 1 to 4). -/
def State.reset : State where
  cmd := 0x00000000
  err := 0
  sticky := false
  opa := 0x0000000000000000
  res := 0x0000000000000000
  rese := 0x00000000
  resm := 0x00000000
  crc := 0x00
  resetAsserted := false
  pending := []
  responses := []
  openCount := 0

/-- What one step, or one command, answers. -/
abbrev Outcome := Host.Outcome State Fault Refusal

end Sys2Proof.Machine
end

