-- ==== Sys2Proof/Machine/Flags.lean ====
section
/-! DEFINITION. `STATUS` and its two flags (spec/10_state.md R22, R30; spec/60_exceptions.md R170 to R174). -/

namespace Sys2Proof.Machine

/-- The command errors (R170). -/
inductive CmdError where
  /-- Reserved opcode, or a reserved or unused field nonzero: any CMD write. -/
  | illegalCmd
  /-- Two's-complement width 0 or above 64: TWOS_DEC, TWOS_ENC. -/
  | badWidth
  /-- Negative value to an unsigned encoder: U2B, ULIN16_ENC. -/
  | negative
  /-- An infinity or a NaN: LIN11_ENC, ULIN16_ENC. -/
  | nonfinite
  /-- Rounded ULINEAR16 result above 65535: ULIN16_ENC. -/
  | range
  deriving DecidableEq, Repr

/-- The code recorded in `STATUS.ERR` (R170). -/
def CmdError.code : CmdError → BitVec 4
  | .illegalCmd => 1
  | .badWidth => 2
  | .negative => 3
  | .nonfinite => 4
  | .range => 5

/-- `STATUS` as the host reads it: `{23'b0, STICKY, 4'b0, ERR}` (R22, R41). -/
def statusWord (s : State) : Word :=
  (0 : BitVec 23) ++ BitVec.ofBool s.sticky ++ (0 : BitVec 4) ++ s.err

/-- A command that succeeded: `ERR <- 0`, `STICKY` unchanged (R173). -/
def recordSuccess (s : State) : State := { s with err := 0 }

/-- A command that failed: `ERR <- code`, `STICKY <- 1`, nothing else (R173). The block's one form of taking an exception:
it transfers no control and saves nothing more (R177), and so there is no return from it. -/
def recordError (e : CmdError) (s : State) : State := { s with err := e.code, sticky := true }

/-- A host write of `v` to STATUS: bit 8 clears `STICKY`, every other bit is ignored (R22, R41, R174). -/
def writeStatus (v : Word) (s : State) : State :=
  if v.getLsbD 8 then { s with sticky := false } else s

end Sys2Proof.Machine
end

