-- ==== Sys2Proof/Machine/Operands.lean ====
section
/-! DEFINITION. The forms in which a command reads its one data operand `OPA` (spec/10_state.md R23; spec/30_encoding.md
R73; the bits read: spec/70_reset_and_hazards.md R195). -/

namespace Sys2Proof.Machine

/-- `OPA[n-1:0]`, an `n`-bit pattern, for `n ≤ 64` (R81, R100, R120, R122). -/
def opaLow (n : Nat) (s : State) : BitVec n := s.opa.setWidth n

/-- `sext_64(OPA)`, a signed integer (R82, R84). -/
def opaSigned (s : State) : Int := sext s.opa

/-- `bytes_L(OPA)`, a byte sequence (R83, R142). -/
def opaBytes (len : Nat) (s : State) : List Byte := bytesOf len s.opa

/-- `f64_val(OPA)`, a binary64 value; `none` when non-finite (R101, R123). -/
def opaReal (s : State) : Option Scaled := f64Val s.opa

end Sys2Proof.Machine
end

