-- ==== Sys2Proof/Machine/Ops.lean ====
section
/-! DEFINITION. The shared operations: how a command commits or fails (spec/10_state.md R31, spec/60_exceptions.md R173),
the register map (spec/20_memory.md R40 to R47), and reset (spec/70_reset_and_hazards.md R190). -/

namespace Sys2Proof.Machine

/-- The result registers a successful command writes, as its rule's "Writes" line lists them; `none` leaves one unchanged. -/
structure Results where
  res : Option DWord := none
  rese : Option Word := none
  resm : Option Word := none
  crc : Option Byte := none
  deriving DecidableEq, Repr

/-- All result registers at once (R31), and `ERR <- 0` (R173). -/
def commit (r : Results) (s : State) : State :=
  recordSuccess
    { s with
      res := r.res.getD s.res
      rese := r.rese.getD s.rese
      resm := r.resm.getD s.resm
      crc := r.crc.getD s.crc }

/-- The end of a command (R31): its results committed, or its error recorded and no result written. -/
def finish (r : Except CmdError Results) (s : State) : Outcome :=
  match r with
  | .ok w => .next (commit w s)
  | .error e => .next (recordError e s)

/-- The 64-byte window (R40): an access is to the block when its address lies in it. -/
def inWindow (offset : Int) : Bool := 0 ≤ offset && offset < 64

/-- R42: 32 bits wide, at an offset that is a multiple of 4. -/
def admitted (offset : Int) (size : Nat) : Bool := size == 4 && offset % 4 == 0

/-- The names of the mapped registers (R41). -/
inductive Reg where
  | cmd | status | opaLo | opaHi | resLo | resHi | rese | resm | crc
  deriving DecidableEq, Repr

/-- The register map (R41); `none` is an unmapped offset. -/
def Reg.ofOffset (offset : Nat) : Option Reg :=
  match offset with
  | 0x00 => some .cmd
  | 0x04 => some .status
  | 0x08 => some .opaLo
  | 0x0C => some .opaHi
  | 0x10 => some .resLo
  | 0x14 => some .resHi
  | 0x18 => some .rese
  | 0x1C => some .resm
  | 0x20 => some .crc
  | _ => none

/-- The offset of a register (R41). -/
def Reg.offset : Reg → Nat
  | .cmd => 0x00
  | .status => 0x04
  | .opaLo => 0x08
  | .opaHi => 0x0C
  | .resLo => 0x10
  | .resHi => 0x14
  | .rese => 0x18
  | .resm => 0x1C
  | .crc => 0x20

/-- What a read of a register returns (R41). -/
def Reg.read (r : Reg) (s : State) : Word :=
  match r with
  | .cmd => s.cmd
  | .status => statusWord s
  | .opaLo => s.opa.extractLsb 31 0
  | .opaHi => s.opa.extractLsb 63 32
  | .resLo => s.res.extractLsb 31 0
  | .resHi => s.res.extractLsb 63 32
  | .rese => s.rese
  | .resm => s.resm
  | .crc => zext 32 s.crc

/-- What a read at an aligned offset of the window returns: an unmapped one reads as zero (R41). -/
def readOffset (offset : Nat) (s : State) : Word :=
  match Reg.ofOffset offset with
  | some r => r.read s
  | none => 0

/-- The byte at a window offset as a host that numbers bytes sees it: byte `k` of the register at `off` is at `off + k`
(R46). An observation of the state, not an access: R42 admits none of one byte. -/
def windowByte (offset : Nat) (s : State) : Byte :=
  (readOffset (offset - offset % 4) s).extractLsb' (8 * (offset % 4)) 8

/-- `OPA[31:0] <- v`, the other half kept (R23, R47). -/
def writeOpaLo (v : Word) (s : State) : State := { s with opa := s.opa.extractLsb 63 32 ++ v }

/-- `OPA[63:32] <- v`, the other half kept (R23, R47). -/
def writeOpaHi (v : Word) (s : State) : State := { s with opa := v ++ s.opa.extractLsb 31 0 }

/-- An access was answered. -/
def respond (r : BusResponse) (s : State) : State := { s with responses := r :: s.responses }

/-- Reset asserted: every field of R20 takes its value of R33 (R190). What belongs to the world outside stays. -/
def assertReset (s : State) : State :=
  { State.reset with
    resetAsserted := true
    pending := s.pending
    responses := s.responses
    openCount := s.openCount }

/-- Reset released: the block is ready (R190). -/
def releaseReset (s : State) : State := { s with resetAsserted := false }

end Sys2Proof.Machine
end

