-- ==== Sys2Proof/Machine/Crc8.lean ====
section
/-! DEFINITION. The CRC8 PEC calculator (spec/43_crc8_pec.md R140 to R143). -/

namespace Sys2Proof.Machine

/-- One shift of R140: polynomial x^8 + x^2 + x + 1, most significant bit first. -/
def pecShift (c : Byte) : Byte := if c.msb then (c <<< 1) ^^^ 0x07 else c <<< 1

/-- The PEC table `T[i]`, computed as R140 gives it: eight shifts. -/
def pecTable (i : Byte) : Byte :=
  pecShift (pecShift (pecShift (pecShift (pecShift (pecShift (pecShift (pecShift i)))))))

/-- One byte fed: `c := T[c ^ b]` (R142). -/
def pecStep (c b : Byte) : Byte := pecTable (c ^^^ b)

/-- A byte sequence fed, first byte first (R142). -/
def pecFeed (c : Byte) (bs : List Byte) : Byte := bs.foldl pecStep c

/-- `crc8_pec(message_bytes)`: fed from the seed 0 (R143). -/
def crc8Pec (message : List Byte) : Byte := pecFeed 0 message

/-- CRC_CLR (R141): `CRC <- 0`, `RES <- 0`. -/
def execCrcClr (s : State) : Outcome := finish (.ok { res := some 0, crc := some 0 }) s

/-- CRC_UPD L[, S] (R142): `L` bytes of `OPA` fed into the running CRC, or into the seed 0 when `S = 1`. -/
def execCrcUpd (len : Nat) (seed : Bool) (s : State) : Outcome :=
  let c := pecFeed (if seed then 0 else s.crc) (opaBytes len s)
  finish (.ok { res := some (zext 64 c), crc := some c }) s

end Sys2Proof.Machine
end

