-- ==== Sys2Proof/Machine/Linear11.lean ====
section
/-! DEFINITION. LINEAR11 decode and encode (spec/41_linear11.md R100, R101). -/

namespace Sys2Proof.Machine

/-- LIN11_DEC (R100): `OPA[15:11]` is the exponent, `OPA[10:0]` the mantissa, both two's complement; the value is exact. -/
def execLin11Dec (s : State) : Outcome :=
  let wd := opaLow 16 s
  let e := sext (wd.extractLsb 15 11)
  let m := sext (wd.extractLsb 10 0)
  finish (.ok { res := some (f64Enc ⟨m, e⟩), rese := some (wrap 32 e), resm := some (wrap 32 m) }) s

/-- LIN11_ENC e (R101): the rounded mantissa wraps to 11 bits without any error; `NONFINITE` for an infinity or a NaN. -/
def execLin11Enc (e : Int) (s : State) : Outcome :=
  finish
    (match opaReal s with
     | none => .error .nonfinite
     | some v =>
       let y := wrap 11 (rne (v.mulPow2 (-e)))
       .ok { res := some (zext 64 (wrap 5 e ++ y)), rese := some (wrap 32 e), resm := some (wrap 32 (sext y)) }) s

end Sys2Proof.Machine
end

