-- ==== Sys2Proof/Machine/TwosBytes.lean ====
section
/-! DEFINITION. NOP, two's complement and byte/integer conversion (spec/40_twos_bytes.md R80 to R84). -/

namespace Sys2Proof.Machine

/-- NOP (R80): `ERR <- 0` and nothing else. -/
def execNop (s : State) : Outcome := finish (.ok {}) s

/-- The widths that fail with `BAD_WIDTH` (R63, R81, R82). -/
def widthBad (n : Nat) : Bool := n == 0 || 64 < n

/-- TWOS_DEC n (R81): `RES <- wrap_64(sext_n(OPA[n-1:0]))`. -/
def execTwosDec (n : Nat) (s : State) : Outcome :=
  finish (if widthBad n then .error .badWidth else .ok { res := some (wrap 64 (sext (opaLow n s))) }) s

/-- TWOS_ENC n (R82): `RES <- zext_64(wrap_n(sext_64(OPA)))`. -/
def execTwosEnc (n : Nat) (s : State) : Outcome :=
  finish (if widthBad n then .error .badWidth else .ok { res := some (zext 64 (wrap n (opaSigned s))) }) s

/-- B2U L, order (R83): `RES <-` the unsigned integer of the first `L` bytes of `OPA`. -/
def execB2u (len : Nat) (order : ByteOrder) (s : State) : Outcome :=
  finish (.ok { res := some (BitVec.ofNat 64 (bytesToNat (inOrder order (opaBytes len s)))) }) s

/-- U2B L, order (R84): `RES <- pack` of the `L` low-order bytes of `OPA`; `NEGATIVE` when `sext_64(OPA) < 0`. -/
def execU2b (len : Nat) (order : ByteOrder) (s : State) : Outcome :=
  let v := opaSigned s
  finish
    (if v < 0 then .error .negative
     else .ok { res := some (pack (inOrder order (natToBytes len (v.toNat % 2 ^ (8 * len))))) }) s

end Sys2Proof.Machine
end

