-- ==== Sys2Proof/Machine/Ulinear16.lean ====
section
/-! DEFINITION. VOUT_MODE exponent, ULINEAR16 decode and encode (spec/42_ulinear16.md R120, R122, R123). -/

namespace Sys2Proof.Machine

/-- VMODE_DEC (R120): `e = sext_5(OPA[4:0])` into `RES` and `RESE`; bits 7:5 are ignored (spec/90_conflicts.md C2). -/
def execVmodeDec (s : State) : Outcome :=
  let e := sext (opaLow 5 s)
  finish (.ok { res := some (wrap 64 e), rese := some (wrap 32 e) }) s

/-- ULIN16_DEC e (R122): the value `raw * 2^e` of `raw = OPA[15:0]`, exact. -/
def execUlin16Dec (e : Int) (s : State) : Outcome :=
  let raw := opaLow 16 s
  finish (.ok { res := some (f64Enc ⟨raw.toNat, e⟩), rese := some (wrap 32 e), resm := some (zext 32 raw) }) s

/-- ULIN16_ENC e (R123): the rounded raw value; `NONFINITE`, then `NEGATIVE` below 0, then `RANGE` above 65535 (R172). -/
def execUlin16Enc (e : Int) (s : State) : Outcome :=
  finish
    (match opaReal s with
     | none => .error .nonfinite
     | some v =>
       let r := rne (v.mulPow2 (-e))
       if r < 0 then .error .negative
       else if 0xFFFF < r then .error .range
       else .ok { res := some (wrap 64 r), rese := some (wrap 32 e), resm := some (wrap 32 r) }) s

end Sys2Proof.Machine
end

