-- ==== Sys2Proof/Machine/Dispatch.lean ====
section
/-! DEFINITION. One arm per command of spec/30_encoding.md R67: each is one call of its meaning. -/

namespace Sys2Proof.Machine

def exec (i : Instr) (s : State) : Host.Outcome State Fault Refusal :=
  match i with
  | .nop => Sys2Proof.Machine.execNop s
  | .twosDec n => Sys2Proof.Machine.execTwosDec n s
  | .twosEnc n => Sys2Proof.Machine.execTwosEnc n s
  | .b2u len order => Sys2Proof.Machine.execB2u len order s
  | .u2b len order => Sys2Proof.Machine.execU2b len order s
  | .lin11Dec => Sys2Proof.Machine.execLin11Dec s
  | .lin11Enc e => Sys2Proof.Machine.execLin11Enc e s
  | .ulin16Dec e => Sys2Proof.Machine.execUlin16Dec e s
  | .ulin16Enc e => Sys2Proof.Machine.execUlin16Enc e s
  | .vmodeDec => Sys2Proof.Machine.execVmodeDec s
  | .crcClr => Sys2Proof.Machine.execCrcClr s
  | .crcUpd len seed => Sys2Proof.Machine.execCrcUpd len seed s

end Sys2Proof.Machine
end

