-- ==== Sys2Proof/Machine/HostPort.lean ====
section
/-! DEFINITION. The host port: register reads and writes (spec/20_memory.md R40 to R50), the CMD write that decodes and
executes a command (spec/30_encoding.md R68), reset (spec/70_reset_and_hazards.md R190, R191), and the pseudo-commands as
sequences of accesses (spec/30_encoding.md R72). -/

namespace Sys2Proof.Machine

/-- A host write of `w` to CMD (R21, R68): `CMD <- w`, then decode and execute; a word that is no command is `ILLEGAL_CMD`. -/
def writeCmd (w : Word) (s : State) : Outcome :=
  let s := { s with cmd := w }
  match decode w with
  | .ok i => exec i s
  | .error _ => .next (recordError .illegalCmd s)

/-- A host write of a register (R41, R44): the read-only ones ignore it without an error. -/
def Reg.write (r : Reg) (v : Word) (s : State) : Outcome :=
  match r with
  | .cmd => writeCmd v s
  | .status => .next (writeStatus v s)
  | .opaLo => .next (writeOpaLo v s)
  | .opaHi => .next (writeOpaHi v s)
  | .resLo => .next s
  | .resHi => .next s
  | .rese => .next s
  | .resm => .next s
  | .crc => .next s

/-- A host write at an aligned offset of the window: an unmapped one ignores it (R41). -/
def writeOffset (offset : Nat) (v : Word) (s : State) : Outcome :=
  match Reg.ofOffset offset with
  | some r => r.write v s
  | none => .next s

/-- A host read (R40 to R43): it changes nothing of the block. -/
def hostRead (offset : Int) (size : Nat) (s : State) : Outcome :=
  if !inWindow offset then .next (respond .notDecoded s)
  else if !admitted offset size then .next (respond .accessFault s)
  else .next (respond (.data (readOffset offset.toNat s)) s)

/-- A host write (R40 to R42, R44): the port accepts it and the register's effect is complete before anything else (R50). -/
def hostWrite (offset : Int) (size : Nat) (v : Word) (s : State) : Outcome :=
  if !inWindow offset then .next (respond .notDecoded s)
  else if !admitted offset size then .next (respond .accessFault s)
  else writeOffset offset.toNat v (respond .written s)

/-- One host access; while reset is asserted the block answers none (R190, I19). Refusing it whatever its address, also one
outside the window, is a DESIGN CHOICE (log entry 8): I19 says "host access", while R190 bars accesses to the window. -/
def hostAccess (a : HostAccess) (s : State) : Outcome :=
  if s.resetAsserted then .refused .accessDuringReset
  else
    match a with
    | .read offset size => hostRead offset size s
    | .write offset size v => hostWrite offset size v s

/-- A CMD write with reset asserted `delay` after it was accepted (R191). Within `LATENCY` the command is abandoned and
the bus answer is open (I20); after it the command had completed. Either way reset leaves R33's values. -/
def cmdWriteThenReset (v : Word) (delay : Nat) (s : State) : Outcome :=
  if s.resetAsserted then .refused .accessDuringReset
  else if delay < Config.latency then
    .next (assertReset { respond (Config.abandonedResponse s.openCount) s with openCount := s.openCount + 1 })
  else
    match writeCmd v (respond .written s) with
    | .next t => .next (assertReset t)
    | .fault f => .fault f
    | .refused r => .refused r

/-- One event from outside (R5, R190). -/
def handle (ev : HostEvent) (s : State) : Outcome :=
  match ev with
  | .access a => hostAccess a s
  | .assertReset => .next (assertReset s)
  | .releaseReset => .next (releaseReset s)
  | .cmdWriteThenReset v delay => cmdWriteThenReset v delay s

/-- The oldest pending event happens, whole, before the next (R50). With none pending the block does nothing: it starts no
activity of its own and has no halt (R5, R199). -/
def nextEvent (s : State) : Outcome :=
  match s.pending with
  | [] => .next s
  | ev :: rest => handle ev { s with pending := rest }

/-- `MemRead(address, size)` at an address of the host's address space (R10, R40). -/
def memRead (address : Int) (size : Nat) : HostAccess := .read (address - Config.base) size

/-- `MemWrite(address, size, value)` at an address of the host's address space (R10, R40). -/
def memWrite (address : Int) (size : Nat) (value : Word) : HostAccess := .write (address - Config.base) size value

/-- `rd REG` (R71). -/
def rd (r : Reg) : HostEvent := .access (.read r.offset 4)

/-- `wr REG, imm32` (R71). -/
def wr (r : Reg) (v : Word) : HostEvent := .access (.write r.offset 4 v)

/-- `ld OPA, imm64` (R72). -/
def ldOpa (x : DWord) : List HostEvent := [wr .opaLo (x.extractLsb 31 0), wr .opaHi (x.extractLsb 63 32)]

/-- `exec C` (R72). -/
def execCmd (i : Instr) : List HostEvent := [wr .cmd (encode i)]

/-- `clr.sticky` (R72). -/
def clrSticky : List HostEvent := [wr .status 0x00000100]

/-- One chunk of `pec`: `ld OPA, pack(chunk)`, then `exec CRC_UPD len[, S]` (R72). -/
def pecChunk (seed : Bool) (chunk : List Byte) : List HostEvent :=
  ldOpa (pack chunk) ++ execCmd (.crcUpd chunk.length seed)

/-- `pec` over a message already split into chunks (R72, R143): `S` for the first chunk only. -/
def pecChunks : List (List Byte) → List HostEvent
  | [] => []
  | first :: rest => pecChunk true first ++ rest.flatMap (pecChunk false)

/-- A message in order in chunks of up to 8 bytes (R72). `fuel` bounds the number of chunks; the message's length is enough. -/
def chunksOf8 : Nat → List Byte → List (List Byte)
  | 0, _ => []
  | _ + 1, [] => []
  | fuel + 1, b :: bs => (b :: bs).take 8 :: chunksOf8 fuel ((b :: bs).drop 8)

/-- `pec (b_0, ..., b_(K-1))`, `K ≥ 1` (R72). -/
def pec (message : List Byte) : List HostEvent := pecChunks (chunksOf8 message.length message)

end Sys2Proof.Machine
end

