-- ==== Sys2Proof/Machine/Step.lean ====
section
/-! DEFINITION. One step: the oldest pending event of the outside world happens (spec/00_scope.md R5, spec/20_memory.md R50). -/

namespace Sys2Proof.Machine

/-- One step of the machine. -/
def step (s : State) : Host.Outcome State Fault Refusal := nextEvent s

/-- `s` with the host about to write `w` (its low `nbits` bits) to CMD, reset released: the very next step runs that word.
The block fetches nothing (R29); the host supplies each command so (log entry 1). -/
def State.withFetchWord (s : State) (nbits w : Nat) : State :=
  { s with
    resetAsserted := false
    pending := .access (.write 0x00 4 (BitVec.ofNat 32 (w % 2 ^ nbits))) :: s.pending }

end Sys2Proof.Machine
end

