-- ==== Sys2Proof/Safety.lean ====
section
/-! DEFINITION. What claims about runs are stated in: the ranges the registers always hold, and a safe run. -/

namespace Sys2Proof

open Machine

/-- What every reachable state satisfies: `ERR` is 0 to 5 (spec/10_state.md R22), `RESE` is `wrap_32(e)` of an exponent in
-16..15 (R25, spec/30_encoding.md R62), `RESM` is `wrap_32(m)` of an 11-bit mantissa or a 16-bit raw value (R26). -/
abbrev RegisterRanges (s : State) : Prop :=
  s.err.toNat ≤ 5 ∧
  (-16 ≤ s.rese.toInt ∧ s.rese.toInt ≤ 15) ∧
  (-1024 ≤ s.resm.toInt ∧ s.resm.toInt ≤ 65535)

/-- An event the platform may issue with reset at the given level: no access while reset is asserted (R190). Counting an access
outside the window as a breach too is a DESIGN CHOICE (log entry 8). -/
def eventAllowed (inReset : Bool) : HostEvent → Bool
  | .access _ => !inReset
  | .assertReset => true
  | .releaseReset => true
  | .cmdWriteThenReset _ _ => !inReset

/-- The level of the reset input after an event (R190, R191). -/
def resetAfter (inReset : Bool) : HostEvent → Bool
  | .access _ => inReset
  | .assertReset => true
  | .releaseReset => false
  | .cmdWriteThenReset _ _ => true

/-- A platform that keeps R190's duty: no event of the list is an access while reset is asserted. -/
def platformKeepsOff : Bool → List HostEvent → Bool
  | _, [] => true
  | inReset, ev :: rest => eventAllowed inReset ev && platformKeepsOff (resetAfter inReset ev) rest

/-- A safe run of `k` steps: it ends in a state, with no fault and no refusal on the way. -/
def runsSafely (k : Nat) (s : State) : Prop := ∃ t, core.run k s = .next t

end Sys2Proof
end

