-- ==== Sys2Proof/Certificates/Slice0/Obligations.lean ====
section
/-! DEFINITION. The statements for the provers. Each cites the rule of spec/ it formalises. The helpers of the first part
restate the spec's arithmetic on plain numbers, apart from the model's own definitions, so that a statement compares the two. -/

namespace Sys2Proof.Stated

open Sys2Proof Sys2Proof.Machine

/-- `sext_n(p)` as R8 writes it: `p - 2^n` when the top bit is set, else `p`. -/
def signedField (n p : Nat) : Int := if 2 ^ (n - 1) ≤ p then (p : Int) - 2 ^ n else p

/-- Bits `lo + len - 1` down to `lo` of a number (R7). -/
def bitsOf (x lo len : Nat) : Nat := x / 2 ^ lo % 2 ^ len

/-- The binary64 pattern is finite (R13). -/
def f64Finite (b : DWord) : Prop := bitsOf b.toNat 52 11 ≠ 0x7FF

/-- The rational a finite binary64 pattern stands for (R13). -/
def f64Rat (b : DWord) : ℚ :=
  let s := bitsOf b.toNat 63 1
  let e := bitsOf b.toNat 52 11
  let f := bitsOf b.toNat 0 52
  if e = 0 then (-1) ^ s * f * (2 : ℚ) ^ (-1074 : ℤ)
  else (-1) ^ s * ((2 : ℚ) ^ 52 + f) * (2 : ℚ) ^ ((e : ℤ) - 1075)

/-- `r` is `rne(q)` (R15): the integer nearest to `q`, and on a tie the even one. -/
def IsRne (q : ℚ) (r : Int) : Prop := |q - r| ≤ 1 / 2 ∧ (|q - r| = 1 / 2 → r % 2 = 0)

/-- A binary64 pattern that encodes `q` as R14 says: finite, of that value, and +0.0 for zero. -/
def EncodesF64 (b : DWord) (q : ℚ) : Prop := f64Finite b ∧ f64Rat b = q ∧ (q = 0 → b = 0)

/-- One row of R67's table: match, mask, and the command with its fields by R62 to R66. -/
structure Row where
  pattern : Nat
  mask : Nat
  command : Nat → Instr

/-- `w[14:12] + 1` (R64). -/
def lengthOf (w : Nat) : Nat := bitsOf w 12 3 + 1

/-- `w[15]` (R65). -/
def orderOf (w : Nat) : ByteOrder := if bitsOf w 15 1 = 1 then .big else .little

/-- `sext_5(w[24:20])` (R62). -/
def exponentOf (w : Nat) : Int := signedField 5 (bitsOf w 20 5)

/-- R67's table, row by row. -/
def opcodeTable : List Row :=
  [⟨0x00000000, 0xFFFFFFFF, fun _ => .nop⟩,
   ⟨0x00000001, 0xFFFFF80F, fun w => .twosDec (bitsOf w 4 7)⟩,
   ⟨0x00000002, 0xFFFFF80F, fun w => .twosEnc (bitsOf w 4 7)⟩,
   ⟨0x00000003, 0xFFFF0FFF, fun w => .b2u (lengthOf w) (orderOf w)⟩,
   ⟨0x00000004, 0xFFFF0FFF, fun w => .u2b (lengthOf w) (orderOf w)⟩,
   ⟨0x00000005, 0xFFFFFFFF, fun _ => .lin11Dec⟩,
   ⟨0x00000006, 0xFE0FFFFF, fun w => .lin11Enc (exponentOf w)⟩,
   ⟨0x00000007, 0xFE0FFFFF, fun w => .ulin16Dec (exponentOf w)⟩,
   ⟨0x00000008, 0xFE0FFFFF, fun w => .ulin16Enc (exponentOf w)⟩,
   ⟨0x00000009, 0xFFFFFFFF, fun _ => .vmodeDec⟩,
   ⟨0x0000000A, 0xFFFFFFFF, fun _ => .crcClr⟩,
   ⟨0x0000000B, 0xFFFE8FFF, fun w => .crcUpd (lengthOf w) (bitsOf w 16 1 == 1)⟩]

/-- `(w & mask) = match` (R67). -/
def Row.selects (r : Row) (w : Word) : Prop := w.toNat &&& r.mask = r.pattern

/-- The bits of a word its opcode's row uses (R61, R67): `OP`, and the fields of the column "fields used". -/
def usedBit (op k : Nat) : Prop :=
  k < 4 ∨ ((op = 1 ∨ op = 2) ∧ 4 ≤ k ∧ k ≤ 10) ∨ ((op = 3 ∨ op = 4 ∨ op = 0xB) ∧ 12 ≤ k ∧ k ≤ 14) ∨
    ((op = 3 ∨ op = 4) ∧ k = 15) ∨ (op = 0xB ∧ k = 16) ∨ ((op = 6 ∨ op = 7 ∨ op = 8) ∧ 20 ≤ k ∧ k ≤ 24)

/-- The table R140 prints, row by row (row = high nibble). -/
def printedPecTable : List Byte :=
  [0x00, 0x07, 0x0E, 0x09, 0x1C, 0x1B, 0x12, 0x15, 0x38, 0x3F, 0x36, 0x31, 0x24, 0x23, 0x2A, 0x2D] ++
  ([0x70, 0x77, 0x7E, 0x79, 0x6C, 0x6B, 0x62, 0x65, 0x48, 0x4F, 0x46, 0x41, 0x54, 0x53, 0x5A, 0x5D] ++
  ([0xE0, 0xE7, 0xEE, 0xE9, 0xFC, 0xFB, 0xF2, 0xF5, 0xD8, 0xDF, 0xD6, 0xD1, 0xC4, 0xC3, 0xCA, 0xCD] ++
  ([0x90, 0x97, 0x9E, 0x99, 0x8C, 0x8B, 0x82, 0x85, 0xA8, 0xAF, 0xA6, 0xA1, 0xB4, 0xB3, 0xBA, 0xBD] ++
  ([0xC7, 0xC0, 0xC9, 0xCE, 0xDB, 0xDC, 0xD5, 0xD2, 0xFF, 0xF8, 0xF1, 0xF6, 0xE3, 0xE4, 0xED, 0xEA] ++
  ([0xB7, 0xB0, 0xB9, 0xBE, 0xAB, 0xAC, 0xA5, 0xA2, 0x8F, 0x88, 0x81, 0x86, 0x93, 0x94, 0x9D, 0x9A] ++
  ([0x27, 0x20, 0x29, 0x2E, 0x3B, 0x3C, 0x35, 0x32, 0x1F, 0x18, 0x11, 0x16, 0x03, 0x04, 0x0D, 0x0A] ++
  ([0x57, 0x50, 0x59, 0x5E, 0x4B, 0x4C, 0x45, 0x42, 0x6F, 0x68, 0x61, 0x66, 0x73, 0x74, 0x7D, 0x7A] ++
  ([0x89, 0x8E, 0x87, 0x80, 0x95, 0x92, 0x9B, 0x9C, 0xB1, 0xB6, 0xBF, 0xB8, 0xAD, 0xAA, 0xA3, 0xA4] ++
  ([0xF9, 0xFE, 0xF7, 0xF0, 0xE5, 0xE2, 0xEB, 0xEC, 0xC1, 0xC6, 0xCF, 0xC8, 0xDD, 0xDA, 0xD3, 0xD4] ++
  ([0x69, 0x6E, 0x67, 0x60, 0x75, 0x72, 0x7B, 0x7C, 0x51, 0x56, 0x5F, 0x58, 0x4D, 0x4A, 0x43, 0x44] ++
  ([0x19, 0x1E, 0x17, 0x10, 0x05, 0x02, 0x0B, 0x0C, 0x21, 0x26, 0x2F, 0x28, 0x3D, 0x3A, 0x33, 0x34] ++
  ([0x4E, 0x49, 0x40, 0x47, 0x52, 0x55, 0x5C, 0x5B, 0x76, 0x71, 0x78, 0x7F, 0x6A, 0x6D, 0x64, 0x63] ++
  ([0x3E, 0x39, 0x30, 0x37, 0x22, 0x25, 0x2C, 0x2B, 0x06, 0x01, 0x08, 0x0F, 0x1A, 0x1D, 0x14, 0x13] ++
  ([0xAE, 0xA9, 0xA0, 0xA7, 0xB2, 0xB5, 0xBC, 0xBB, 0x96, 0x91, 0x98, 0x9F, 0x8A, 0x8D, 0x84, 0x83] ++
  [0xDE, 0xD9, 0xD0, 0xD7, 0xC2, 0xC5, 0xCC, 0xCB, 0xE6, 0xE1, 0xE8, 0xEF, 0xFA, 0xFD, 0xF4, 0xF3]))))))))))))))

/-- `T[i]` by the printed table. -/
def printedEntry (i : Byte) : Byte := printedPecTable.getD i.toNat 0

/-- R140's algorithm on plain numbers: one of its eight shifts. -/
def crcShift (c : Nat) : Nat := if bitsOf c 7 1 = 1 then (2 * c % 256) ^^^ 0x07 else 2 * c % 256

/-- `x` is the one word of the command `i`: a word decodes to `i` exactly when it is `x`. -/
def HasWord (i : Instr) (x : Nat) : Prop := ∀ w : Word, decode w = .ok i ↔ w.toNat = x

/-- `BE` of R65 and R71. -/
def orderBit : ByteOrder → Nat
  | .little => 0
  | .big => 1

/-- Byte `i` of `OPA` as a number (R16). -/
def opaByte (x : DWord) (i : Nat) : Nat := bitsOf x.toNat (8 * i) 8

/-- R142's loop over the first `len` bytes of `x`, by the printed table. -/
def pecLoop (x : DWord) : Nat → Byte → Byte
  | 0, c => c
  | len + 1, c => printedEntry (pecLoop x len c ^^^ BitVec.ofNat 8 (opaByte x len))

/-- The place of sequence byte `i` of `len` in the integer: `i` for little-endian, `len-1-i` for big-endian (R83, R84). -/
def place (order : ByteOrder) (len i : Nat) : Nat :=
  match order with
  | .little => i
  | .big => len - 1 - i

/-- The error codes a decoded command may leave in `ERR` (R171). -/
def possibleCodes : Instr → List Nat
  | .twosDec _ => [0, 2]
  | .twosEnc _ => [0, 2]
  | .u2b _ _ => [0, 3]
  | .lin11Enc _ => [0, 4]
  | .ulin16Enc _ => [0, 3, 4, 5]
  | .nop => [0]
  | .b2u _ _ => [0]
  | .lin11Dec => [0]
  | .ulin16Dec _ => [0]
  | .vmodeDec => [0]
  | .crcClr => [0]
  | .crcUpd _ _ => [0]

/-- How many low bits of `OPA` a command reads (R195's table). -/
def operandBits : Instr → Nat
  | .nop => 0
  | .twosDec n => n
  | .twosEnc _ => 64
  | .b2u len _ => 8 * len
  | .u2b _ _ => 64
  | .lin11Dec => 16
  | .lin11Enc _ => 64
  | .ulin16Dec _ => 16
  | .ulin16Enc _ => 64
  | .vmodeDec => 5
  | .crcClr => 0
  | .crcUpd len _ => 8 * len

/-- The window offsets of the registers a command may change: `STATUS`, and the "Writes" line of its rule. -/
def writtenOffsets : Instr → List Nat
  | .nop => [0x04]
  | .twosDec _ => [0x04, 0x10, 0x14]
  | .twosEnc _ => [0x04, 0x10, 0x14]
  | .b2u _ _ => [0x04, 0x10, 0x14]
  | .u2b _ _ => [0x04, 0x10, 0x14]
  | .lin11Dec => [0x04, 0x10, 0x14, 0x18, 0x1C]
  | .lin11Enc _ => [0x04, 0x10, 0x14, 0x18, 0x1C]
  | .ulin16Dec _ => [0x04, 0x10, 0x14, 0x18, 0x1C]
  | .ulin16Enc _ => [0x04, 0x10, 0x14, 0x18, 0x1C]
  | .vmodeDec => [0x04, 0x10, 0x14, 0x18]
  | .crcClr => [0x04, 0x10, 0x14, 0x20]
  | .crcUpd _ _ => [0x04, 0x10, 0x14, 0x20]

/-- The state a command finds when the host's write of `w` to CMD runs it: `CMD` holds `w` (R68), the event is taken off the
list, and the write was accepted. -/
def afterCmdWrite (w : Word) (rest : List HostEvent) (s : State) : State :=
  { s with cmd := w, pending := rest, responses := .written :: s.responses }

/-- An event that resets the block (R190, R191). -/
def isReset (ev : HostEvent) : Prop := ev = .assertReset ∨ ∃ v delay, ev = .cmdWriteThenReset v delay

/-- The eight fields of R20 hold R33's values. -/
def FieldsReset (s : State) : Prop :=
  s.cmd.toNat = 0 ∧ s.err.toNat = 0 ∧ s.sticky = false ∧ s.opa.toNat = 0 ∧ s.res.toNat = 0 ∧ s.rese.toNat = 0 ∧
    s.resm.toNat = 0 ∧ s.crc.toNat = 0

/-- R41's column "read returns", one number per 32-bit register, offsets 0x00 to 0x3C. -/
def readColumn (s : State) : List Nat :=
  [s.cmd.toNat, s.err.toNat + 256 * s.sticky.toNat, s.opa.toNat % 2 ^ 32, s.opa.toNat / 2 ^ 32,
   s.res.toNat % 2 ^ 32, s.res.toNat / 2 ^ 32, s.rese.toNat, s.resm.toNat, s.crc.toNat, 0, 0, 0, 0, 0, 0, 0]

end Sys2Proof.Stated

open Sys2Proof Sys2Proof.Machine Sys2Proof.Stated

/-! ## Encoding -/

/-- The words R71 writes out decode to the commands it writes them for. A sanity statement. -/
def Obligations.WrittenOutWordsDecode : Prop :=
  decode 0x00000000 = .ok .nop ∧ decode 0x00000051 = .ok (.twosDec 5) ∧ decode 0x000000B2 = .ok (.twosEnc 11) ∧
  decode 0x00001003 = .ok (.b2u 2 .little) ∧ decode 0x00009003 = .ok (.b2u 2 .big) ∧
  decode 0x00001004 = .ok (.u2b 2 .little) ∧ decode 0x0000F004 = .ok (.u2b 8 .big) ∧
  decode 0x00000005 = .ok .lin11Dec ∧ decode 0x01F00006 = .ok (.lin11Enc (-1)) ∧
  decode 0x01A00006 = .ok (.lin11Enc (-6)) ∧ decode 0x01400007 = .ok (.ulin16Dec (-12)) ∧
  decode 0x01400008 = .ok (.ulin16Enc (-12)) ∧ decode 0x00000009 = .ok .vmodeDec ∧
  decode 0x0000000A = .ok .crcClr ∧ decode 0x0000300B = .ok (.crcUpd 4 false) ∧
  decode 0x0001300B = .ok (.crcUpd 4 true)

/-- Decoding the word of a command gives the command back, with every operand at every value its field admits (R61 to R71). -/
def Obligations.DecodeOfEncodeIsTheCommand : Prop :=
  ∀ i : Instr, i.wellFormed = true → decode (encode i) = .ok i

/-- A word that decodes is the word of the command it decodes to, and the command's operands are in range: no bit of a
legal word is ignored (R69) and no command has two words. -/
def Obligations.EncodeOfDecodeIsTheWord : Prop :=
  ∀ (w : Word) (i : Instr), decode w = .ok i → i.wellFormed = true ∧ encode i = w

/-- R67: a word selects the row when `(w & mask) = match`, and decodes to that row's command; a word no row selects is no
command; and no word selects two rows (R68). -/
def Obligations.DecodeFollowsTheOpcodeTable : Prop :=
  ∀ w : Word,
    (∀ r ∈ opcodeTable, r.selects w → decode w = .ok (r.command w.toNat)) ∧
    ((∀ r ∈ opcodeTable, ¬ r.selects w) → ∃ e, decode w = .error e) ∧
    (∀ r ∈ opcodeTable, ∀ r' ∈ opcodeTable, r.selects w → r'.selects w → r.pattern = r'.pattern)

/-- R69: a word with a reserved opcode or with any bit set that its row does not use is `ILLEGAL_CMD`, and is never executed;
a two's-complement width that is out of range is no encoding error: the word selects its row and fails with `BAD_WIDTH`. -/
def Obligations.ReservedBitsAreIllegal : Prop :=
  (∀ (w : Word) (s : State), 12 ≤ w.toNat % 16 →
    writeCmd w s = .next { s with cmd := w, err := 1, sticky := true }) ∧
  (∀ (w : Word) (k : Nat) (s : State), k < 32 → bitsOf w.toNat k 1 = 1 → ¬ usedBit (w.toNat % 16) k →
    writeCmd w s = .next { s with cmd := w, err := 1, sticky := true }) ∧
  (∀ (w : Word) (n : Nat) (s : State), n ≤ 127 → n = 0 ∨ 64 < n → w.toNat = 1 + 16 * n ∨ w.toNat = 2 + 16 * n →
    writeCmd w s = .next { s with cmd := w, err := 2, sticky := true })

/-- R70's count: for each opcode, the legal words are those of a list without repeats, of the length R70 gives; 404 in all. -/
def Obligations.LegalWordsAreCounted : Prop :=
  ∃ l : Nat → List Word,
    (∀ op w, w ∈ l op ↔ w.toNat % 16 = op ∧ ∃ i, decode w = .ok i) ∧
    (∀ op, (l op).Nodup) ∧
    (List.range 16).map (fun op => (l op).length) = [1, 128, 128, 16, 16, 1, 32, 32, 32, 1, 1, 16, 0, 0, 0, 0] ∧
    ((List.range 16).map fun op => (l op).length).sum = 404

/-! ## What each command does, and that it does nothing else -/

/-- R80: NOP clears `ERR`, keeps `STICKY`, and changes nothing else; the only legal word with `OP = 0` is 0. -/
def Obligations.NopClearsOnlyErr : Prop :=
  (∀ s : State, exec .nop s = .next { s with err := 0 }) ∧ HasWord .nop 0x0 ∧
  (∀ w : Word, w.toNat % 16 = 0 → w.toNat ≠ 0 → ∃ e, decode w = .error e)

/-- R81: for every width 1 to 64, TWOS_DEC writes the signed reading of `OPA[n-1:0]` to `RES`; any other width is `BAD_WIDTH`. -/
def Obligations.TwosDecReadsSigned : Prop :=
  (∀ (n : Nat) (s : State), 1 ≤ n → n ≤ 64 →
    ∃ r : DWord, exec (.twosDec n) s = .next { s with res := r, err := 0 } ∧
      r.toInt = signedField n (s.opa.toNat % 2 ^ n)) ∧
  (∀ (n : Nat) (s : State), n = 0 ∨ 64 < n → exec (.twosDec n) s = .next { s with err := 2, sticky := true }) ∧
  (∀ n : Nat, n ≤ 127 → HasWord (.twosDec n) (0x1 + n * 2 ^ 4))

/-- R82: for every width 1 to 64, TWOS_ENC writes `sext_64(OPA) mod 2^n` to `RES`; any other width is `BAD_WIDTH`. -/
def Obligations.TwosEncWrapsModulo : Prop :=
  (∀ (n : Nat) (s : State), 1 ≤ n → n ≤ 64 →
    ∃ r : DWord, exec (.twosEnc n) s = .next { s with res := r, err := 0 } ∧
      (r.toNat : Int) = signedField 64 s.opa.toNat % 2 ^ n) ∧
  (∀ (n : Nat) (s : State), n = 0 ∨ 64 < n → exec (.twosEnc n) s = .next { s with err := 2, sticky := true }) ∧
  (∀ n : Nat, n ≤ 127 → HasWord (.twosEnc n) (0x2 + n * 2 ^ 4))

/-- R83: B2U writes the sum of the first `L` bytes of `OPA`, each at its place in the order named. -/
def Obligations.B2uSumsTheBytes : Prop :=
  (∀ (len : Nat) (order : ByteOrder) (s : State), 1 ≤ len → len ≤ 8 →
    ∃ r : DWord, exec (.b2u len order) s = .next { s with res := r, err := 0 } ∧
      r.toNat = ∑ i ∈ Finset.range len, opaByte s.opa i * 2 ^ (8 * place order len i)) ∧
  (∀ (len : Nat) (order : ByteOrder), 1 ≤ len → len ≤ 8 →
    HasWord (.b2u len order) (0x3 + (len - 1) * 2 ^ 12 + orderBit order * 2 ^ 15))

/-- R84: U2B writes the `L` bytes of `OPA mod 2^(8L)`, packed, in the order named; a negative `OPA` is `NEGATIVE`. -/
def Obligations.U2bWritesTheBytes : Prop :=
  (∀ (len : Nat) (order : ByteOrder) (s : State), 1 ≤ len → len ≤ 8 → s.opa.toNat < 2 ^ 63 →
    ∃ r : DWord, exec (.u2b len order) s = .next { s with res := r, err := 0 } ∧
      r.toNat =
        ∑ i ∈ Finset.range len, bitsOf (s.opa.toNat % 2 ^ (8 * len)) (8 * place order len i) 8 * 2 ^ (8 * i)) ∧
  (∀ (len : Nat) (order : ByteOrder) (s : State), 1 ≤ len → len ≤ 8 → 2 ^ 63 ≤ s.opa.toNat →
    exec (.u2b len order) s = .next { s with err := 3, sticky := true }) ∧
  (∀ (len : Nat) (order : ByteOrder), 1 ≤ len → len ≤ 8 →
    HasWord (.u2b len order) (0x4 + (len - 1) * 2 ^ 12 + orderBit order * 2 ^ 15))

/-- R100: LIN11_DEC of every word writes the exact value `m * 2^e` as a binary64 pattern (+0.0 for zero), the exponent and
the mantissa; `CRC` and all else stay. -/
def Obligations.Lin11DecIsExact : Prop :=
  (∀ s : State, ∃ (r : DWord) (re rm : Word),
    exec .lin11Dec s = .next { s with res := r, rese := re, resm := rm, err := 0 } ∧
    re.toInt = signedField 5 (bitsOf s.opa.toNat 11 5) ∧
    rm.toInt = signedField 11 (bitsOf s.opa.toNat 0 11) ∧
    EncodesF64 r ((rm.toInt : ℚ) * (2 : ℚ) ^ re.toInt)) ∧
  HasWord .lin11Dec 0x5

/-- R101: LIN11_ENC of a finite value packs the exponent field and the rounded mantissa modulo 2^11, with no range error;
a non-finite operand is `NONFINITE`. -/
def Obligations.Lin11EncRoundsAndWraps : Prop :=
  (∀ (e : Int) (s : State), -16 ≤ e → e ≤ 15 → f64Finite s.opa →
    ∃ (y : Int) (r : DWord) (re rm : Word),
      IsRne (f64Rat s.opa * (2 : ℚ) ^ (-e)) y ∧
      exec (.lin11Enc e) s = .next { s with res := r, rese := re, resm := rm, err := 0 } ∧
      (r.toNat : Int) = e % 32 * 2048 + y % 2048 ∧
      re.toInt = e ∧ rm.toInt = signedField 11 (y % 2048).toNat) ∧
  (∀ (e : Int) (s : State), -16 ≤ e → e ≤ 15 → ¬ f64Finite s.opa →
    exec (.lin11Enc e) s = .next { s with err := 4, sticky := true }) ∧
  (∀ e : Int, -16 ≤ e → e ≤ 15 → HasWord (.lin11Enc e) (0x6 + (e % 32).toNat * 2 ^ 20))

/-- R120: VMODE_DEC writes the signed reading of `OPA[4:0]` to `RES` and `RESE`; `RESM`, `CRC` and all else stay. -/
def Obligations.VmodeDecReadsLowFiveBits : Prop :=
  (∀ s : State, ∃ (r : DWord) (re : Word),
    exec .vmodeDec s = .next { s with res := r, rese := re, err := 0 } ∧
    r.toInt = signedField 5 (s.opa.toNat % 32) ∧ re.toInt = signedField 5 (s.opa.toNat % 32)) ∧
  HasWord .vmodeDec 0x9

/-- R122: ULIN16_DEC writes the exact value `raw * 2^e`, the exponent and the raw word; `CRC` and all else stay. -/
def Obligations.Ulin16DecIsExact : Prop :=
  (∀ (e : Int) (s : State), -16 ≤ e → e ≤ 15 →
    ∃ (r : DWord) (re rm : Word),
      exec (.ulin16Dec e) s = .next { s with res := r, rese := re, resm := rm, err := 0 } ∧
      re.toInt = e ∧ rm.toNat = s.opa.toNat % 65536 ∧
      EncodesF64 r (((s.opa.toNat % 65536 : Nat) : ℚ) * (2 : ℚ) ^ e)) ∧
  (∀ e : Int, -16 ≤ e → e ≤ 15 → HasWord (.ulin16Dec e) (0x7 + (e % 32).toNat * 2 ^ 20))

/-- R123: ULIN16_ENC writes the rounded raw value when it is in 0..65535; below is `NEGATIVE`, above is `RANGE`, and a
non-finite operand is `NONFINITE`, each with nothing written but the error. -/
def Obligations.Ulin16EncRoundsOrFails : Prop :=
  (∀ (e y : Int) (s : State), -16 ≤ e → e ≤ 15 → f64Finite s.opa → IsRne (f64Rat s.opa * (2 : ℚ) ^ (-e)) y →
    (0 ≤ y → y ≤ 65535 →
      ∃ (r : DWord) (re rm : Word),
        exec (.ulin16Enc e) s = .next { s with res := r, rese := re, resm := rm, err := 0 } ∧
        (r.toNat : Int) = y ∧ re.toInt = e ∧ (rm.toNat : Int) = y) ∧
    (y < 0 → exec (.ulin16Enc e) s = .next { s with err := 3, sticky := true }) ∧
    (65535 < y → exec (.ulin16Enc e) s = .next { s with err := 5, sticky := true })) ∧
  (∀ (e : Int) (s : State), -16 ≤ e → e ≤ 15 → ¬ f64Finite s.opa →
    exec (.ulin16Enc e) s = .next { s with err := 4, sticky := true }) ∧
  (∀ e : Int, -16 ≤ e → e ≤ 15 → HasWord (.ulin16Enc e) (0x8 + (e % 32).toNat * 2 ^ 20))

/-- R141: CRC_CLR zeroes `CRC` and `RES` and changes nothing else but `ERR`; any number of `CRC_UPD L` after it leave the CRC
of the bytes fed; and CRC_CLR then `CRC_UPD L` is `CRC_UPD L, S`. -/
def Obligations.CrcClrZeroes : Prop :=
  (∀ s : State, exec .crcClr s = .next { s with crc := 0, res := 0, err := 0 }) ∧ HasWord .crcClr 0xA ∧
  (∀ (chunks : List (List Byte)) (rest : List HostEvent) (s : State), (∀ c ∈ chunks, 1 ≤ c.length ∧ c.length ≤ 8) →
    s.resetAsserted = false → s.pending = execCmd .crcClr ++ chunks.flatMap (pecChunk false) ++ rest →
    ∃ t : State, core.run (1 + 3 * chunks.length) s = .next t ∧ t.crc = crc8Pec chunks.flatten ∧ t.pending = rest) ∧
  (∀ (len : Nat) (s : State), 1 ≤ len → len ≤ 8 →
    ∃ t, exec .crcClr s = .next t ∧ exec (.crcUpd len false) t = exec (.crcUpd len true) s)

/-- R142: CRC_UPD feeds the first `L` bytes of `OPA`, by the table R140 prints, from the seed or from `CRC`, and leaves the
same byte in `CRC` and `RES`. Its corner cases: fed in two pieces, the bytes give the `CRC` they give whole; the byte that
equals `CRC`, which is the PEC of what was fed, leaves 0; a zero byte fed into 0 leaves 0. -/
def Obligations.CrcUpdFeedsTheBytes : Prop :=
  (∀ (len : Nat) (seed : Bool) (s : State), 1 ≤ len → len ≤ 8 →
    ∃ r : DWord, exec (.crcUpd len seed) s =
        .next { s with crc := pecLoop s.opa len (if seed then 0 else s.crc), res := r, err := 0 } ∧
      r.toNat = (pecLoop s.opa len (if seed then 0 else s.crc)).toNat) ∧
  (∀ (len : Nat) (seed : Bool), 1 ≤ len → len ≤ 8 →
    HasWord (.crcUpd len seed) (0xB + (len - 1) * 2 ^ 12 + seed.toNat * 2 ^ 16)) ∧
  (∀ (a b : Nat) (seed : Bool) (x : DWord) (s : State), 1 ≤ a → 1 ≤ b → a + b ≤ 8 →
    x.toNat = s.opa.toNat / 2 ^ (8 * a) →
    ∃ t u v, exec (.crcUpd a seed) s = .next t ∧ exec (.crcUpd b false) { t with opa := x } = .next u ∧
      exec (.crcUpd (a + b) seed) s = .next v ∧ u.crc = v.crc) ∧
  (∀ s : State, s.opa.toNat % 256 = s.crc.toNat →
    exec (.crcUpd 1 false) s = .next { s with crc := 0, res := 0, err := 0 }) ∧
  (∀ s : State, s.opa.toNat % 256 = 0 → s.crc.toNat = 0 →
    exec (.crcUpd 1 false) s = .next { s with crc := 0, res := 0, err := 0 })

/-- R140: the printed table has the entries of its algorithm, the model's table is that table, entry by entry, and so the
model's CRC of a message is that table's. -/
def Obligations.PecTableIsThePrintedTable : Prop :=
  printedPecTable.length = 256 ∧
  (∀ i : Byte, (printedEntry i).toNat =
    crcShift (crcShift (crcShift (crcShift (crcShift (crcShift (crcShift (crcShift i.toNat)))))))) ∧
  (∀ i : Byte, pecTable i = printedEntry i) ∧
  (∀ message : List Byte, crc8Pec message = message.foldl (fun c b => printedEntry (c ^^^ b)) 0)

/-! ## Numeric laws -/

/-- R13: reading a binary64 pattern. -/
def Obligations.Binary64PatternsReadExactly : Prop :=
  ∀ b : DWord, (¬ f64Finite b → f64Val b = none) ∧
    (f64Finite b → ∃ q : Scaled, f64Val b = some q ∧ q.value = f64Rat b)

/-- R14: encoding a value of the decoders is exact, gives +0.0 for zero, and otherwise a normal pattern with the sign bit of
the value. -/
def Obligations.Binary64EncodeIsExact : Prop :=
  ∀ m e : Int, -1024 ≤ m → m ≤ 65535 → -16 ≤ e → e ≤ 15 →
    EncodesF64 (f64Enc ⟨m, e⟩) ((m : ℚ) * (2 : ℚ) ^ e) ∧
    (m ≠ 0 → 1 ≤ bitsOf (f64Enc ⟨m, e⟩).toNat 52 11 ∧
      (bitsOf (f64Enc ⟨m, e⟩).toNat 63 1 = 1 ↔ m < 0))

/-- R15: rounding takes the nearest integer, on a tie the even one, for every exact value. -/
def Obligations.RoundingIsToNearestEven : Prop :=
  ∀ q : Scaled, IsRne q.value (rne q)

/-- R85: the three round trips, each as two commands. -/
def Obligations.IntegerRoundTrips : Prop :=
  (∀ (n : Nat) (x : Int) (s : State), 1 ≤ n → n ≤ 64 → -(2 ^ (n - 1)) ≤ x → x ≤ 2 ^ (n - 1) - 1 →
    ∃ t u, exec (.twosEnc n) { s with opa := BitVec.ofInt 64 x } = .next t ∧
      exec (.twosDec n) { t with opa := t.res } = .next u ∧ u.res = BitVec.ofInt 64 x ∧ u.err = 0) ∧
  (∀ (n p : Nat) (s : State), 1 ≤ n → n ≤ 64 → p < 2 ^ n →
    ∃ t u, exec (.twosDec n) { s with opa := BitVec.ofNat 64 p } = .next t ∧
      exec (.twosEnc n) { t with opa := t.res } = .next u ∧ u.res.toNat = p ∧ u.err = 0) ∧
  (∀ (v len : Nat) (order : ByteOrder) (s : State), v < 2 ^ 63 → 1 ≤ len → len ≤ 8 →
    ∃ t u, exec (.u2b len order) { s with opa := BitVec.ofNat 64 v } = .next t ∧
      exec (.b2u len order) { t with opa := t.res } = .next u ∧ u.res.toNat = v % 2 ^ (8 * len) ∧ u.err = 0)

/-- R102: LIN11_DEC of any word, then LIN11_ENC of the result at the word's own exponent, gives the word back. -/
def Obligations.Lin11RoundTrip : Prop :=
  ∀ (wd : Nat) (s : State), wd < 65536 →
    ∃ t u, exec .lin11Dec { s with opa := BitVec.ofNat 64 wd } = .next t ∧
      exec (.lin11Enc (signedField 5 (wd / 2048))) { t with opa := t.res } = .next u ∧
      u.res.toNat = wd ∧ u.err = 0

/-- R103: exactly ten words decode to 1.0, the 32 words with a zero mantissa decode to 0, and `RESE` with `RESM` tell any two
words apart. -/
def Obligations.NonCanonicalWords : Prop :=
  (∀ (wd : Nat) (s t : State), wd < 65536 → exec .lin11Dec { s with opa := BitVec.ofNat 64 wd } = .next t →
    (t.res = 0x3FF0000000000000 ↔
      wd ∈ [0x0001, 0xF802, 0xF004, 0xE808, 0xE010, 0xD820, 0xD040, 0xC880, 0xC100, 0xBA00]) ∧
    (t.res = 0 ↔ wd % 2048 = 0)) ∧
  (∀ (wd wd' : Nat) (s s' t t' : State), wd < 65536 → wd' < 65536 →
    exec .lin11Dec { s with opa := BitVec.ofNat 64 wd } = .next t →
    exec .lin11Dec { s' with opa := BitVec.ofNat 64 wd' } = .next t' →
    t.rese = t'.rese → t.resm = t'.resm → wd = wd')

/-- R124: ULIN16_ENC succeeds exactly when the rounded value is in 0..65535, that is on `-0.5 * 2^e ≤ v < 65535.5 * 2^e`. -/
def Obligations.Ulin16AcceptedInputs : Prop :=
  ∀ (e : Int) (s : State), -16 ≤ e → e ≤ 15 → f64Finite s.opa →
    ∃ t, exec (.ulin16Enc e) s = .next t ∧
      (∀ y : Int, IsRne (f64Rat s.opa * (2 : ℚ) ^ (-e)) y → (t.err = 0 ↔ 0 ≤ y ∧ y ≤ 65535)) ∧
      (t.err = 0 ↔ -(1 / 2) * (2 : ℚ) ^ e ≤ f64Rat s.opa ∧ f64Rat s.opa < 131071 / 2 * (2 : ℚ) ^ e)

/-- R125: for every accepted value, ULIN16_ENC then ULIN16_DEC gives a value within `2^(e-1)` of it. -/
def Obligations.Ulin16HalfUnitApproximation : Prop :=
  ∀ (e : Int) (s t : State), -16 ≤ e → e ≤ 15 → f64Finite s.opa → exec (.ulin16Enc e) s = .next t → t.err = 0 →
    ∃ u, exec (.ulin16Dec e) { t with opa := t.res } = .next u ∧ u.err = 0 ∧ f64Finite u.res ∧
      |f64Rat u.res - f64Rat s.opa| ≤ (2 : ℚ) ^ (e - 1)

/-! ## The PEC -/

/-- R143: a message of at least one byte, split in any way into chunks of 1 to 8 bytes and fed with `S` for the first chunk
only, leaves in `CRC` and `RES` the CRC of the whole message, and changes neither `RESE`, `RESM` nor `STICKY`; for the empty
message the value is the seed 0, which is `CRC` after CRC_CLR. -/
def Obligations.PecOfChunksIsTheMessagesCrc : Prop :=
  (∀ (chunks : List (List Byte)) (rest : List HostEvent) (s : State), chunks ≠ [] →
    (∀ c ∈ chunks, 1 ≤ c.length ∧ c.length ≤ 8) → s.resetAsserted = false → s.pending = pecChunks chunks ++ rest →
    ∃ t : State, core.run (3 * chunks.length) s = .next t ∧ t.crc = crc8Pec chunks.flatten ∧
      t.res.toNat = t.crc.toNat ∧ t.err = 0 ∧ t.sticky = s.sticky ∧ t.rese = s.rese ∧ t.resm = s.resm ∧ t.pending = rest) ∧
  (∀ s : State, ∃ t, exec .crcClr s = .next t ∧ t.crc = crc8Pec [] ∧ t.crc.toNat = 0)

/-- R72: the pseudo-command `pec (b_0, ..., b_(K-1))` runs, takes three accesses for each started eight bytes, and the read of
CRC after it is answered with the message's CRC. -/
def Obligations.PecSequenceComputesCrc8Pec : Prop :=
  ∀ (message : List Byte) (rest : List HostEvent) (s : State), message ≠ [] → s.resetAsserted = false →
    s.pending = pec message ++ rd .crc :: rest →
    ∃ (t : State) (v : Word), core.run (3 * ((message.length + 7) / 8)) s = .next t ∧ t.crc = crc8Pec message ∧
      step t = .next { t with pending := rest, responses := .data v :: t.responses } ∧
      v.toNat = (crc8Pec message).toNat

/-- R144: changing any single bit of a message of any length changes its CRC. -/
def Obligations.SingleBitErrorsAreDetected : Prop :=
  ∀ (message : List Byte) (k b : Nat) (h : k < message.length), b < 8 →
    crc8Pec (message.set k (message[k] ^^^ (1#8 <<< b))) ≠ crc8Pec message

/-! ## Errors, and what a result depends on -/

/-- R173: whatever word the host writes to CMD, either the command ends without an error and `STICKY` stays, or `ERR` holds
its code, `STICKY` is 1, and no other field but `CMD` changed. -/
def Obligations.ErrorsAreRecordedAndNothingElse : Prop :=
  ∀ (w : Word) (rest : List HostEvent) (s : State), s.resetAsserted = false →
    s.pending = .access (.write 0x00 4 w) :: rest →
    ∃ t, step s = .next t ∧
      ((t.err = 0 ∧ t.sticky = s.sticky ∧ t.cmd = w ∧ t.opa = s.opa) ∨
       (t.err ≠ 0 ∧ t = { afterCmdWrite w rest s with err := t.err, sticky := true }))

/-- R171: a command fails only with the codes R171 gives it, and a word that is no command with `ILLEGAL_CMD`, the first in
R172's order, before any field is interpreted. -/
def Obligations.CommandsFailOnlyWithTheirCodes : Prop :=
  (∀ (i : Instr) (s : State), ∃ t, exec i s = .next t ∧ t.err.toNat ∈ possibleCodes i) ∧
  (∀ (w : Word) (e : DecodeError) (s : State), decode w = .error e →
    writeCmd w s = .next { s with cmd := w, err := 1, sticky := true })

/-- R31: no command's result depends on `RES`, `RESE`, `RESM`, `CMD` or `STATUS`, nor, but for CRC_UPD without `S`, on `CRC`:
from two states with the same `OPA`, a command ends with the same code, and leaves each result register equal in both or
unchanged in both. -/
def Obligations.ResultsDependOnlyOnOperands : Prop :=
  ∀ (i : Instr) (s u : State), s.opa = u.opa → (∀ len, i = .crcUpd len false → s.crc = u.crc) →
    ∃ t v, exec i s = .next t ∧ exec i u = .next v ∧ t.err = v.err ∧
      (t.res = v.res ∨ t.res = s.res ∧ v.res = u.res) ∧
      (t.rese = v.rese ∨ t.rese = s.rese ∧ v.rese = u.rese) ∧
      (t.resm = v.resm ∨ t.resm = s.resm ∧ v.resm = u.resm) ∧
      (t.crc = v.crc ∨ t.crc = s.crc ∧ v.crc = u.crc)

/-- R195's table: a command reads no bit of `OPA` but those the table lists. -/
def Obligations.CommandsReadOnlyTheirOperandBits : Prop :=
  ∀ (i : Instr) (s : State) (x : DWord), s.opa.toNat % 2 ^ operandBits i = x.toNat % 2 ^ operandBits i →
    ∃ t, exec i s = .next t ∧ exec i { s with opa := x } = .next { t with opa := x }

/-- Every byte of the window stays, at every command, but for those of `STATUS` and of the registers its rule writes. -/
def Obligations.CommandsLeaveTheRestOfTheWindow : Prop :=
  ∀ (i : Instr) (s t : State) (a : Nat), exec i s = .next t → a < 64 → a - a % 4 ∉ writtenOffsets i →
    windowByte a t = windowByte a s

/-! ## The host port -/

/-- A step runs the decoded command: the host's write of a word to CMD stores it and then runs the command it decodes to, the
event taken off the list and the write answered; and `withFetchWord` puts exactly such a write first. -/
def Obligations.StepRunsTheDecodedCommand : Prop :=
  (∀ (w : Word) (i : Instr) (rest : List HostEvent) (s : State), s.resetAsserted = false →
    s.pending = .access (.write 0x00 4 w) :: rest → decode w = .ok i → step s = exec i (afterCmdWrite w rest s)) ∧
  (∀ (w : Word) (i : Instr) (s : State), decode w = .ok i →
    step (s.withFetchWord 32 w.toNat) = exec i (afterCmdWrite w s.pending { s with resetAsserted := false }))

/-- R43, with R41's column "read returns": an admitted read of each of the 16 aligned offsets is answered with the column's
value, and changes nothing of the block. -/
def Obligations.ReadsReturnTheRegisterMap : Prop :=
  ∀ (k : Nat) (rest : List HostEvent) (s : State), k < 16 → s.resetAsserted = false →
    s.pending = .access (.read (4 * (k : Int)) 4) :: rest →
    ∃ v : Word, step s = .next { s with pending := rest, responses := .data v :: s.responses } ∧
      v.toNat = (readColumn s).getD k 0

/-- R41's column "write does", less CMD: STATUS clears `STICKY` when bit 8 is 1 and ignores the rest, each half of `OPA` is
stored and the other kept, and every other aligned offset ignores the write, without an error response (R44). -/
def Obligations.WritesFollowTheRegisterMap : Prop :=
  ∀ (v : Word) (rest : List HostEvent) (s : State), s.resetAsserted = false →
    (s.pending = .access (.write 0x04 4 v) :: rest →
      (bitsOf v.toNat 8 1 = 1 →
        step s = .next { s with pending := rest, responses := .written :: s.responses, sticky := false }) ∧
      (bitsOf v.toNat 8 1 = 0 → step s = .next { s with pending := rest, responses := .written :: s.responses })) ∧
    (s.pending = .access (.write 0x08 4 v) :: rest →
      ∃ x : DWord, step s = .next { s with pending := rest, responses := .written :: s.responses, opa := x } ∧
        x.toNat = s.opa.toNat / 2 ^ 32 * 2 ^ 32 + v.toNat) ∧
    (s.pending = .access (.write 0x0C 4 v) :: rest →
      ∃ x : DWord, step s = .next { s with pending := rest, responses := .written :: s.responses, opa := x } ∧
        x.toNat = v.toNat * 2 ^ 32 + s.opa.toNat % 2 ^ 32) ∧
    (∀ k : Nat, 4 ≤ k → k < 16 → s.pending = .access (.write (4 * (k : Int)) 4 v) :: rest →
      step s = .next { s with pending := rest, responses := .written :: s.responses })

/-- R42, R175: an access to the window of another width, or at an offset that is not a multiple of 4, is answered with
`ACCESS_FAULT` and changes no state, `STATUS` included. -/
def Obligations.BadAccessesChangeNothing : Prop :=
  ∀ (offset : Int) (size : Nat) (v : Word) (rest : List HostEvent) (s : State), 0 ≤ offset → offset < 64 →
    size ≠ 4 ∨ offset % 4 ≠ 0 → s.resetAsserted = false →
    s.pending = .access (.read offset size) :: rest ∨ s.pending = .access (.write offset size v) :: rest →
    step s = .next { s with pending := rest, responses := .accessFault :: s.responses }

/-- R40: an address outside the window is not decoded. That the host's access is then answered by nothing of the block's is
the model's reading (log entry 7). Out of reset: during reset the access is refused (log entry 8). -/
def Obligations.AddressesOutsideTheWindowAreNotDecoded : Prop :=
  ∀ (address : Int) (size : Nat) (v : Word) (rest : List HostEvent) (s : State),
    address < Config.base ∨ (Config.base : Int) + 64 ≤ address → s.resetAsserted = false →
    s.pending = .access (memRead address size) :: rest ∨ s.pending = .access (memWrite address size v) :: rest →
    step s = .next { s with pending := rest, responses := .notDecoded :: s.responses }

/-- R21: `CMD` holds the last word the host wrote, even when the word is an illegal command or the command fails, and a read
of CMD returns it. -/
def Obligations.CmdKeepsTheLastWord : Prop :=
  ∀ (w : Word) (rest : List HostEvent) (s : State), s.resetAsserted = false →
    s.pending = .access (.write 0x00 4 w) :: .access (.read 0x00 4) :: rest →
    ∃ t u, step s = .next t ∧ t.cmd = w ∧ step t = .next u ∧
      u = { t with pending := rest, responses := .data w :: t.responses }

/-- R174: `STICKY` goes from 1 to 0 only by a host write of STATUS with bit 8 set or by reset; and `ERR` changes only by a
write of CMD or by reset. -/
def Obligations.StatusIsClearedOnlyAsStated : Prop :=
  ∀ s t : State, step s = .next t →
    (s.sticky = true → t.sticky = false →
      ∃ ev rest, s.pending = ev :: rest ∧
        ((∃ v : Word, ev = .access (.write 0x04 4 v) ∧ bitsOf v.toNat 8 1 = 1) ∨ isReset ev)) ∧
    (t.err ≠ s.err →
      ∃ ev rest, s.pending = ev :: rest ∧ ((∃ w : Word, ev = .access (.write 0x00 4 w)) ∨ isReset ev))

/-- R23: `OPA` changes only by a host write of one of its halves or by reset; commands never write it. -/
def Obligations.OpaIsWrittenOnlyByTheHost : Prop :=
  ∀ s t : State, step s = .next t → t.opa ≠ s.opa →
    ∃ ev rest, s.pending = ev :: rest ∧
      ((∃ v : Word, ev = .access (.write 0x08 4 v) ∨ ev = .access (.write 0x0C 4 v)) ∨ isReset ev)

/-- R27: `CRC` changes only by CRC_CLR, CRC_UPD or reset. -/
def Obligations.CrcIsWrittenOnlyByCrcCommands : Prop :=
  ∀ s t : State, step s = .next t → t.crc ≠ s.crc →
    ∃ ev rest, s.pending = ev :: rest ∧
      ((∃ w : Word, ev = .access (.write 0x00 4 w) ∧
        (decode w = .ok .crcClr ∨ ∃ len seed, decode w = .ok (.crcUpd len seed))) ∨ isReset ev)

/-- R24 to R26, R31: `RES`, `RESE` and `RESM` change only by a command that ends without an error, and is no NOP, or by
reset. -/
def Obligations.ResultsAreWrittenOnlyBySuccess : Prop :=
  ∀ s t : State, step s = .next t → t.res ≠ s.res ∨ t.rese ≠ s.rese ∨ t.resm ≠ s.resm →
    ∃ ev rest, s.pending = ev :: rest ∧
      ((∃ (w : Word) (i : Instr), ev = .access (.write 0x00 4 w) ∧ decode w = .ok i ∧ i ≠ .nop ∧ t.err = 0) ∨ isReset ev)

/-- R46: byte `k` of the register at an aligned offset is bits `[8k+7 : 8k]` of what a read returns, so the register is the
little-endian sum of its four bytes. -/
def Obligations.WindowBytesAreLittleEndian : Prop :=
  ∀ (offset : Nat) (s : State), offset < 64 → offset % 4 = 0 →
    (∀ k, k < 4 → (windowByte (offset + k) s).toNat = bitsOf (readOffset offset s).toNat (8 * k) 8) ∧
    (readOffset offset s).toNat = ∑ k ∈ Finset.range 4, (windowByte (offset + k) s).toNat * 2 ^ (8 * k)

/-- R50: events take effect in order, one at a time: a step takes exactly the oldest one, and what it does is the same
whatever comes later. -/
def Obligations.EventsTakeEffectInOrder : Prop :=
  ∀ (ev : HostEvent) (later later' : List HostEvent) (s t : State), step { s with pending := ev :: later } = .next t →
    t.pending = later ∧ step { s with pending := ev :: later' } = .next { t with pending := later' }

/-- R5, R199: with nothing pending the block does nothing and does not stop. That such a step exists at all is the model's
choice (log entry 1). -/
def Obligations.TheBlockIdlesWithoutTheHost : Prop :=
  ∀ s : State, s.pending = [] → step s = .next s

/-! ## Reset, invariants, completion -/

/-- R33, R190: asserting reset, in any state, sets every field of R20 to its reset value. That the level of the reset input is
a field of State is the model's choice (log entry 4), and so is that the pending events and the answers stay (log entry 10). -/
def Obligations.ResetSetsEveryField : Prop :=
  FieldsReset State.reset ∧
  ∀ (rest : List HostEvent) (s : State), s.pending = .assertReset :: rest →
    ∃ t, step s = .next t ∧ FieldsReset t ∧ t.resetAsserted = true ∧ t.pending = rest ∧ t.responses = s.responses

/-- R191: a CMD write that reset cuts short, or that reset follows, leaves the state of R190, and none of the command's
writes survive; the write got one bus answer, whatever it was. -/
def Obligations.ResetDuringACommandAbandonsIt : Prop :=
  ∀ (v : Word) (delay : Nat) (rest : List HostEvent) (s : State), s.resetAsserted = false →
    s.pending = .cmdWriteThenReset v delay :: rest →
    ∃ t r, step s = .next t ∧ FieldsReset t ∧ t.resetAsserted = true ∧ t.pending = rest ∧ t.responses = r :: s.responses

/-- R190: an access while reset is asserted is refused (93 I19, treatment `refuse`), at an address outside the window too: the
model's choice (log entry 8); and after reset is released the next access is handled. -/
def Obligations.AccessesDuringResetAreRefused : Prop :=
  (∀ (a : HostAccess) (rest : List HostEvent) (s : State), s.resetAsserted = true → s.pending = .access a :: rest →
    step s = .refused .accessDuringReset) ∧
  (∀ (a : HostAccess) (rest : List HostEvent) (s : State), s.pending = .releaseReset :: .access a :: rest →
    ∃ t u, step s = .next t ∧ t = { s with resetAsserted := false, pending := .access a :: rest } ∧ step t = .next u)

/-- R190: software reaches the reset values by commands: CRC_CLR, writes of 0 to OPA, LIN11_DEC, `clr.sticky` and a write of
0 to CMD, from any state out of reset. -/
def Obligations.SoftwareReachesTheResetValues : Prop :=
  ∀ (rest : List HostEvent) (s : State), s.resetAsserted = false →
    s.pending = execCmd .crcClr ++ ldOpa 0 ++ execCmd .lin11Dec ++ clrSticky ++ execCmd .nop ++ rest →
    ∃ t : State, core.run 6 s = .next t ∧ FieldsReset t ∧ t.pending = rest

/-- The register ranges hold at reset (R33). -/
def Obligations.RegisterRangesHoldAtReset : Prop := RegisterRanges State.reset

/-- R22, R25, R26: `ERR` stays 0 to 5, `RESE` the sign-extension of an exponent in -16..15, and `RESM` that of a mantissa or
raw value, at every step from every state where they are. -/
def Obligations.RegisterRangesAreKept : Prop :=
  ∀ s t : State, RegisterRanges s → step s = .next t → RegisterRanges t

/-- R198: every command completes, whatever the state and the operands. -/
def Obligations.EveryCommandCompletes : Prop :=
  ∀ (i : Instr) (s : State), ∃ t, exec i s = .next t ∧ t.cmd = s.cmd ∧ t.opa = s.opa

/-- R198, R199: on a platform that issues no access during reset (R190), every finite run of host events is taken to its end,
one step each, and the machine runs on after it. The event list is the
model's choice (log entry 1). -/
def Obligations.EveryRunReachesItsEnd : Prop :=
  ∀ s : State, platformKeepsOff s.resetAsserted s.pending = true →
    (∃ t : State, core.run s.pending.length s = .next t ∧ t.pending = []) ∧ ∀ k, runsSafely k s

/-- R190, R198: from every state whose pending events keep the platform's duty (no access while reset is asserted), a step
answers a next state, and the events left keep the duty there. That events are a list, and that a step without any answers
the state itself, is the model's choice (log entry 1); the level of the reset input is a field by log entry 4. -/
def Obligations.PlatformDutyIsKeptByEveryStep : Prop :=
  ∀ s : State, platformKeepsOff s.resetAsserted s.pending = true →
    ∃ t, step s = .next t ∧ platformKeepsOff t.resetAsserted t.pending = true
end

