-- ==== Sys2Proof/Laws/Numeric.lean ====
section
/-! SUPPORT. Laws of the numeric primitives of Machine/Numeric.lean: what wrapping and sign reading do on integers, what a
concatenation, a byte sequence and the fields of a binary64 pattern are as numbers. -/

namespace Sys2Proof.Machine

/-! ### Wrapping and concatenation -/

theorem toNat_append_eq {n m : Nat} (a : BitVec n) (b : BitVec m) : (a ++ b).toNat = a.toNat * 2 ^ m + b.toNat := by
  rw [BitVec.toNat_append, Nat.shiftLeft_eq, Nat.mul_comm, ← Nat.two_pow_add_eq_or_of_lt b.isLt]

/-- `wrap_n(x)` is `x mod 2^n` (R8). -/
theorem wrap_toNat (n : Nat) (x : Int) : ((wrap n x).toNat : Int) = x % 2 ^ n := by
  unfold wrap
  rw [BitVec.toNat_ofInt, Int.toNat_of_nonneg (Int.emod_nonneg _ (by positivity))]
  push_cast; rfl

/-- Wrapping loses nothing of a value in the signed range (R8: the two directions of `twos_complement`). -/
theorem wrap_toInt {n : Nat} {x : Int} (hn : 0 < n) (lo : -2 ^ (n - 1) ≤ x) (hi : x < 2 ^ (n - 1)) :
    (wrap n x).toInt = x := by
  obtain ⟨k, rfl⟩ : ∃ k, n = k + 1 := ⟨n - 1, by omega⟩
  have : (2 : Int) ^ (k + 1) = 2 * 2 ^ k := by rw [pow_succ]; omega
  simp only [Nat.add_sub_cancel] at lo hi
  unfold wrap
  rw [BitVec.toInt_ofInt]
  apply Int.bmod_eq_of_le <;> push_cast <;> omega

theorem sext_lower {n : Nat} (p : BitVec n) : -2 ^ (n - 1) ≤ sext p := BitVec.le_toInt p

theorem sext_upper {n : Nat} (p : BitVec n) : sext p < 2 ^ (n - 1) := BitVec.toInt_lt

/-! ### Byte sequences -/

@[simp] theorem bytesOf_length (len : Nat) (x : DWord) : (bytesOf len x).length = len := by simp [bytesOf]

@[simp] theorem natToBytes_length (len t : Nat) : (natToBytes len t).length = len := by simp [natToBytes]

@[simp] theorem inOrder_length (order : ByteOrder) (bs : List Byte) : (inOrder order bs).length = bs.length := by
  cases order <;> simp [inOrder]

theorem byteAt_toNat (x : DWord) (i : Nat) : (byteAt x i).toNat = x.toNat / 2 ^ (8 * i) % 256 := by
  simp [byteAt, Nat.shiftRight_eq_div_pow]

/-- A sequence is below `2^(8L)`, so up to 8 bytes fit a register. -/
theorem bytesToNat_lt (bs : List Byte) : bytesToNat bs < 2 ^ (8 * bs.length) := by
  induction bs with
  | nil => simp [bytesToNat]
  | cons b bs ih =>
    have := b.isLt
    simp only [bytesToNat, List.length_cons]
    rw [show 8 * (bs.length + 1) = 8 * bs.length + 8 by ring, pow_add]
    omega

theorem bytesToNat_lt_register {bs : List Byte} (h : bs.length ≤ 8) : bytesToNat bs < 2 ^ 64 :=
  lt_of_lt_of_le (bytesToNat_lt bs) (Nat.pow_le_pow_right (by decide) (by omega))

theorem pack_toNat {bs : List Byte} (h : bs.length ≤ 8) : (pack bs).toNat = bytesToNat bs := by
  rw [pack, BitVec.toNat_ofNat, Nat.mod_eq_of_lt (bytesToNat_lt_register h)]

/-- Packing and then reading the same bytes gives the sequence back (R16). -/
theorem bytesOf_pack {bs : List Byte} (h : bs.length ≤ 8) : bytesOf bs.length (pack bs) = bs := by
  have key : ∀ (bs : List Byte) (i : Nat) (hi : i < bs.length), bytesToNat bs / 2 ^ (8 * i) % 256 = bs[i].toNat := by
    intro bs
    induction bs with
    | nil => intro i hi; simp at hi
    | cons b bs ih =>
      intro i hi
      have := b.isLt
      cases i with
      | zero => simp [bytesToNat]; omega
      | succ i =>
        rw [show 8 * (i + 1) = 8 + 8 * i by ring, pow_add, ← Nat.div_div_eq_div_mul]
        have : bytesToNat (b :: bs) / 2 ^ 8 = bytesToNat bs := by simp only [bytesToNat]; omega
        rw [this]
        simpa using ih i (by simpa using hi)
  apply List.ext_getElem
  · simp
  · intro i h1 h2
    apply BitVec.eq_of_toNat_eq
    simp only [bytesOf, List.getElem_map, List.getElem_range, byteAt_toNat, pack_toNat h]
    exact key bs i h2

/-! ### Binary64 fields -/

theorem f64_exponentField (b : DWord) : (b.extractLsb 62 52).toNat = b.toNat / 2 ^ 52 % 2 ^ 11 := by
  simp [Nat.shiftRight_eq_div_pow]

theorem f64_fractionField (b : DWord) : (b.extractLsb 51 0).toNat = b.toNat % 2 ^ 52 := by simp

theorem f64NonFinite_iff (b : DWord) : f64NonFinite b = true ↔ b.toNat / 2 ^ 52 % 2 ^ 11 = 0x7FF := by
  rw [← f64_exponentField, f64NonFinite, beq_iff_eq, ← BitVec.toNat_inj]
  rfl

/-- A non-finite pattern has no value (R13). -/
theorem f64Val_eq_none_iff (b : DWord) : f64Val b = none ↔ f64NonFinite b = true := by
  unfold f64Val
  simp only
  split_ifs with h <;> simp [h]

/-! ### The PEC -/

theorem pecFeed_append (c : Byte) (a b : List Byte) : pecFeed c (a ++ b) = pecFeed (pecFeed c a) b := by
  simp [pecFeed, List.foldl_append]

/-- One shift of R140 loses nothing: its value tells its argument. -/
theorem pecShift_injective (a b : Byte) (h : pecShift a = pecShift b) : a = b := by
  have key : ∀ a b : Fin 256, pecShift ⟨a⟩ = pecShift ⟨b⟩ → a.val % 128 = b.val % 128 ∧ a.val / 128 = b.val / 128 := by
    have low : ∀ a : Fin 256, (pecShift ⟨a⟩).toNat % 2 = a.val / 128 := by decide +kernel
    have high : ∀ a : Fin 256, (pecShift ⟨a⟩ ^^^ if 128 ≤ a.val then 7 else 0).toNat = a.val % 128 * 2 := by
      decide +kernel
    intro a b hab
    have hl := (low a).symm.trans (hab ▸ low b)
    refine ⟨?_, hl⟩
    have ha := high a
    have hb := high b
    rw [hab] at ha
    have : (128 ≤ a.val) = (128 ≤ b.val) := by simp only [eq_iff_iff]; omega
    simp only [this] at ha
    omega
  have := key a.toFin b.toFin h
  apply BitVec.eq_of_toNat_eq
  have ea : a.toNat = a.toFin.val := rfl
  have eb : b.toNat = b.toFin.val := rfl
  omega

end Sys2Proof.Machine
end

