-- ==== Sys2Proof/Laws/State.lean ====
section
/-! SUPPORT. One lemma per field per state update (the updates of Machine/Flags.lean and Machine/Ops.lean), each true by the
update's definition, so that no later proof unfolds a record update. -/

namespace Sys2Proof.Machine

variable (s : State)

/-! ### `recordSuccess` -/

@[simp] theorem recordSuccess_cmd : (recordSuccess s).cmd = s.cmd := rfl
@[simp] theorem recordSuccess_err : (recordSuccess s).err = 0 := rfl
@[simp] theorem recordSuccess_sticky : (recordSuccess s).sticky = s.sticky := rfl
@[simp] theorem recordSuccess_opa : (recordSuccess s).opa = s.opa := rfl
@[simp] theorem recordSuccess_res : (recordSuccess s).res = s.res := rfl
@[simp] theorem recordSuccess_rese : (recordSuccess s).rese = s.rese := rfl
@[simp] theorem recordSuccess_resm : (recordSuccess s).resm = s.resm := rfl
@[simp] theorem recordSuccess_crc : (recordSuccess s).crc = s.crc := rfl
@[simp] theorem recordSuccess_resetAsserted : (recordSuccess s).resetAsserted = s.resetAsserted := rfl
@[simp] theorem recordSuccess_pending : (recordSuccess s).pending = s.pending := rfl
@[simp] theorem recordSuccess_responses : (recordSuccess s).responses = s.responses := rfl
@[simp] theorem recordSuccess_openCount : (recordSuccess s).openCount = s.openCount := rfl

/-! ### `recordError` -/

@[simp] theorem recordError_cmd (e : CmdError) : (recordError e s).cmd = s.cmd := rfl
@[simp] theorem recordError_err (e : CmdError) : (recordError e s).err = e.code := rfl
@[simp] theorem recordError_sticky (e : CmdError) : (recordError e s).sticky = true := rfl
@[simp] theorem recordError_opa (e : CmdError) : (recordError e s).opa = s.opa := rfl
@[simp] theorem recordError_res (e : CmdError) : (recordError e s).res = s.res := rfl
@[simp] theorem recordError_rese (e : CmdError) : (recordError e s).rese = s.rese := rfl
@[simp] theorem recordError_resm (e : CmdError) : (recordError e s).resm = s.resm := rfl
@[simp] theorem recordError_crc (e : CmdError) : (recordError e s).crc = s.crc := rfl
@[simp] theorem recordError_resetAsserted (e : CmdError) : (recordError e s).resetAsserted = s.resetAsserted := rfl
@[simp] theorem recordError_pending (e : CmdError) : (recordError e s).pending = s.pending := rfl
@[simp] theorem recordError_responses (e : CmdError) : (recordError e s).responses = s.responses := rfl
@[simp] theorem recordError_openCount (e : CmdError) : (recordError e s).openCount = s.openCount := rfl

/-! ### `commit` -/

@[simp] theorem commit_cmd (r : Results) : (commit r s).cmd = s.cmd := rfl
@[simp] theorem commit_err (r : Results) : (commit r s).err = 0 := rfl
@[simp] theorem commit_sticky (r : Results) : (commit r s).sticky = s.sticky := rfl
@[simp] theorem commit_opa (r : Results) : (commit r s).opa = s.opa := rfl
@[simp] theorem commit_res (r : Results) : (commit r s).res = r.res.getD s.res := rfl
@[simp] theorem commit_rese (r : Results) : (commit r s).rese = r.rese.getD s.rese := rfl
@[simp] theorem commit_resm (r : Results) : (commit r s).resm = r.resm.getD s.resm := rfl
@[simp] theorem commit_crc (r : Results) : (commit r s).crc = r.crc.getD s.crc := rfl
@[simp] theorem commit_resetAsserted (r : Results) : (commit r s).resetAsserted = s.resetAsserted := rfl
@[simp] theorem commit_pending (r : Results) : (commit r s).pending = s.pending := rfl
@[simp] theorem commit_responses (r : Results) : (commit r s).responses = s.responses := rfl
@[simp] theorem commit_openCount (r : Results) : (commit r s).openCount = s.openCount := rfl

/-! ### `writeOpaLo` -/

@[simp] theorem writeOpaLo_cmd (v : Word) : (writeOpaLo v s).cmd = s.cmd := rfl
@[simp] theorem writeOpaLo_err (v : Word) : (writeOpaLo v s).err = s.err := rfl
@[simp] theorem writeOpaLo_sticky (v : Word) : (writeOpaLo v s).sticky = s.sticky := rfl
@[simp] theorem writeOpaLo_opa (v : Word) : (writeOpaLo v s).opa = s.opa.extractLsb 63 32 ++ v := rfl
@[simp] theorem writeOpaLo_res (v : Word) : (writeOpaLo v s).res = s.res := rfl
@[simp] theorem writeOpaLo_rese (v : Word) : (writeOpaLo v s).rese = s.rese := rfl
@[simp] theorem writeOpaLo_resm (v : Word) : (writeOpaLo v s).resm = s.resm := rfl
@[simp] theorem writeOpaLo_crc (v : Word) : (writeOpaLo v s).crc = s.crc := rfl
@[simp] theorem writeOpaLo_resetAsserted (v : Word) : (writeOpaLo v s).resetAsserted = s.resetAsserted := rfl
@[simp] theorem writeOpaLo_pending (v : Word) : (writeOpaLo v s).pending = s.pending := rfl
@[simp] theorem writeOpaLo_responses (v : Word) : (writeOpaLo v s).responses = s.responses := rfl
@[simp] theorem writeOpaLo_openCount (v : Word) : (writeOpaLo v s).openCount = s.openCount := rfl

/-! ### `writeOpaHi` -/

@[simp] theorem writeOpaHi_cmd (v : Word) : (writeOpaHi v s).cmd = s.cmd := rfl
@[simp] theorem writeOpaHi_err (v : Word) : (writeOpaHi v s).err = s.err := rfl
@[simp] theorem writeOpaHi_sticky (v : Word) : (writeOpaHi v s).sticky = s.sticky := rfl
@[simp] theorem writeOpaHi_opa (v : Word) : (writeOpaHi v s).opa = v ++ s.opa.extractLsb 31 0 := rfl
@[simp] theorem writeOpaHi_res (v : Word) : (writeOpaHi v s).res = s.res := rfl
@[simp] theorem writeOpaHi_rese (v : Word) : (writeOpaHi v s).rese = s.rese := rfl
@[simp] theorem writeOpaHi_resm (v : Word) : (writeOpaHi v s).resm = s.resm := rfl
@[simp] theorem writeOpaHi_crc (v : Word) : (writeOpaHi v s).crc = s.crc := rfl
@[simp] theorem writeOpaHi_resetAsserted (v : Word) : (writeOpaHi v s).resetAsserted = s.resetAsserted := rfl
@[simp] theorem writeOpaHi_pending (v : Word) : (writeOpaHi v s).pending = s.pending := rfl
@[simp] theorem writeOpaHi_responses (v : Word) : (writeOpaHi v s).responses = s.responses := rfl
@[simp] theorem writeOpaHi_openCount (v : Word) : (writeOpaHi v s).openCount = s.openCount := rfl

/-! ### `respond` -/

@[simp] theorem respond_cmd (a : BusResponse) : (respond a s).cmd = s.cmd := rfl
@[simp] theorem respond_err (a : BusResponse) : (respond a s).err = s.err := rfl
@[simp] theorem respond_sticky (a : BusResponse) : (respond a s).sticky = s.sticky := rfl
@[simp] theorem respond_opa (a : BusResponse) : (respond a s).opa = s.opa := rfl
@[simp] theorem respond_res (a : BusResponse) : (respond a s).res = s.res := rfl
@[simp] theorem respond_rese (a : BusResponse) : (respond a s).rese = s.rese := rfl
@[simp] theorem respond_resm (a : BusResponse) : (respond a s).resm = s.resm := rfl
@[simp] theorem respond_crc (a : BusResponse) : (respond a s).crc = s.crc := rfl
@[simp] theorem respond_resetAsserted (a : BusResponse) : (respond a s).resetAsserted = s.resetAsserted := rfl
@[simp] theorem respond_pending (a : BusResponse) : (respond a s).pending = s.pending := rfl
@[simp] theorem respond_responses (a : BusResponse) : (respond a s).responses = a :: s.responses := rfl
@[simp] theorem respond_openCount (a : BusResponse) : (respond a s).openCount = s.openCount := rfl

/-! ### `assertReset` -/

@[simp] theorem assertReset_cmd : (assertReset s).cmd = 0 := rfl
@[simp] theorem assertReset_err : (assertReset s).err = 0 := rfl
@[simp] theorem assertReset_sticky : (assertReset s).sticky = false := rfl
@[simp] theorem assertReset_opa : (assertReset s).opa = 0 := rfl
@[simp] theorem assertReset_res : (assertReset s).res = 0 := rfl
@[simp] theorem assertReset_rese : (assertReset s).rese = 0 := rfl
@[simp] theorem assertReset_resm : (assertReset s).resm = 0 := rfl
@[simp] theorem assertReset_crc : (assertReset s).crc = 0 := rfl
@[simp] theorem assertReset_resetAsserted : (assertReset s).resetAsserted = true := rfl
@[simp] theorem assertReset_pending : (assertReset s).pending = s.pending := rfl
@[simp] theorem assertReset_responses : (assertReset s).responses = s.responses := rfl
@[simp] theorem assertReset_openCount : (assertReset s).openCount = s.openCount := rfl

/-! ### `releaseReset` -/

@[simp] theorem releaseReset_cmd : (releaseReset s).cmd = s.cmd := rfl
@[simp] theorem releaseReset_err : (releaseReset s).err = s.err := rfl
@[simp] theorem releaseReset_sticky : (releaseReset s).sticky = s.sticky := rfl
@[simp] theorem releaseReset_opa : (releaseReset s).opa = s.opa := rfl
@[simp] theorem releaseReset_res : (releaseReset s).res = s.res := rfl
@[simp] theorem releaseReset_rese : (releaseReset s).rese = s.rese := rfl
@[simp] theorem releaseReset_resm : (releaseReset s).resm = s.resm := rfl
@[simp] theorem releaseReset_crc : (releaseReset s).crc = s.crc := rfl
@[simp] theorem releaseReset_resetAsserted : (releaseReset s).resetAsserted = false := rfl
@[simp] theorem releaseReset_pending : (releaseReset s).pending = s.pending := rfl
@[simp] theorem releaseReset_responses : (releaseReset s).responses = s.responses := rfl
@[simp] theorem releaseReset_openCount : (releaseReset s).openCount = s.openCount := rfl

/-! ### `writeStatus` -/

@[simp] theorem writeStatus_cmd (v : Word) : (writeStatus v s).cmd = s.cmd := by
  unfold writeStatus; split <;> rfl
@[simp] theorem writeStatus_err (v : Word) : (writeStatus v s).err = s.err := by
  unfold writeStatus; split <;> rfl
@[simp] theorem writeStatus_sticky (v : Word) : (writeStatus v s).sticky = (s.sticky && !v.getLsbD 8) := by
  unfold writeStatus; cases v.getLsbD 8 <;> simp
@[simp] theorem writeStatus_opa (v : Word) : (writeStatus v s).opa = s.opa := by
  unfold writeStatus; split <;> rfl
@[simp] theorem writeStatus_res (v : Word) : (writeStatus v s).res = s.res := by
  unfold writeStatus; split <;> rfl
@[simp] theorem writeStatus_rese (v : Word) : (writeStatus v s).rese = s.rese := by
  unfold writeStatus; split <;> rfl
@[simp] theorem writeStatus_resm (v : Word) : (writeStatus v s).resm = s.resm := by
  unfold writeStatus; split <;> rfl
@[simp] theorem writeStatus_crc (v : Word) : (writeStatus v s).crc = s.crc := by
  unfold writeStatus; split <;> rfl
@[simp] theorem writeStatus_resetAsserted (v : Word) : (writeStatus v s).resetAsserted = s.resetAsserted := by
  unfold writeStatus; split <;> rfl
@[simp] theorem writeStatus_pending (v : Word) : (writeStatus v s).pending = s.pending := by
  unfold writeStatus; split <;> rfl
@[simp] theorem writeStatus_responses (v : Word) : (writeStatus v s).responses = s.responses := by
  unfold writeStatus; split <;> rfl
@[simp] theorem writeStatus_openCount (v : Word) : (writeStatus v s).openCount = s.openCount := by
  unfold writeStatus; split <;> rfl

end Sys2Proof.Machine
end

