-- ==== Sys2Proof/Laws/Ops.lean ====
section
/-! SUPPORT. What the shared operations can do, said once: how a command ends, what an error records, what a CMD write and a
register write answer. -/

namespace Sys2Proof.Machine

/-! ### Errors and the end of a command -/

theorem code_ne_zero (e : CmdError) : e.code ≠ 0 := by cases e <;> decide

theorem code_le_five (e : CmdError) : e.code.toNat ≤ 5 := by cases e <;> decide

@[simp] theorem finish_ok (w : Results) (s : State) : finish (.ok w) s = .next (commit w s) := rfl

@[simp] theorem finish_error (e : CmdError) (s : State) : finish (.error e) s = .next (recordError e s) := rfl

/-- A command ends in a next state: its results committed, or its error recorded. -/
theorem finish_next (r : Except CmdError Results) (s : State) :
    ∃ t, finish r s = .next t ∧
      ((∃ w, r = .ok w ∧ t = commit w s) ∨ ∃ e, r = .error e ∧ t = recordError e s) := by
  cases r with
  | ok w => exact ⟨_, rfl, .inl ⟨w, rfl, rfl⟩⟩
  | error e => exact ⟨_, rfl, .inr ⟨e, rfl, rfl⟩⟩

/-- A command decides what to commit or to record from `OPA` and `CRC` alone (R31), and ends so. -/
theorem exec_reads_opa_and_crc (i : Instr) :
    ∃ f : DWord → Byte → Except CmdError Results, ∀ s, exec i s = finish (f s.opa s.crc) s := by
  cases i with
  | nop => exact ⟨fun _ _ => .ok {}, fun _ => rfl⟩
  | twosDec n =>
    exact ⟨fun a _ => if widthBad n then .error .badWidth else .ok { res := some (wrap 64 (sext (a.setWidth n))) },
      fun _ => rfl⟩
  | twosEnc n =>
    exact ⟨fun a _ => if widthBad n then .error .badWidth else .ok { res := some (zext 64 (wrap n (sext a))) },
      fun _ => rfl⟩
  | b2u len order =>
    exact ⟨fun a _ => .ok { res := some (BitVec.ofNat 64 (bytesToNat (inOrder order (bytesOf len a)))) }, fun _ => rfl⟩
  | u2b len order =>
    exact ⟨fun a _ => if sext a < 0 then .error .negative else
      .ok { res := some (pack (inOrder order (natToBytes len ((sext a).toNat % 2 ^ (8 * len))))) }, fun _ => rfl⟩
  | lin11Dec =>
    exact ⟨fun a _ =>
      let e := sext ((a.setWidth 16).extractLsb 15 11)
      let m := sext ((a.setWidth 16).extractLsb 10 0)
      .ok { res := some (f64Enc ⟨m, e⟩), rese := some (wrap 32 e), resm := some (wrap 32 m) }, fun _ => rfl⟩
  | lin11Enc e =>
    exact ⟨fun a _ => match f64Val a with
      | none => .error .nonfinite
      | some v =>
        let y := wrap 11 (rne (v.mulPow2 (-e)))
        .ok { res := some (zext 64 (wrap 5 e ++ y)), rese := some (wrap 32 e), resm := some (wrap 32 (sext y)) },
      fun _ => rfl⟩
  | ulin16Dec e =>
    exact ⟨fun a _ =>
      let raw := a.setWidth 16
      .ok { res := some (f64Enc ⟨raw.toNat, e⟩), rese := some (wrap 32 e), resm := some (zext 32 raw) }, fun _ => rfl⟩
  | ulin16Enc e =>
    exact ⟨fun a _ => match f64Val a with
      | none => .error .nonfinite
      | some v =>
        let r := rne (v.mulPow2 (-e))
        if r < 0 then .error .negative
        else if 0xFFFF < r then .error .range
        else .ok { res := some (wrap 64 r), rese := some (wrap 32 e), resm := some (wrap 32 r) }, fun _ => rfl⟩
  | vmodeDec =>
    exact ⟨fun a _ =>
      let e := sext (a.setWidth 5)
      .ok { res := some (wrap 64 e), rese := some (wrap 32 e) }, fun _ => rfl⟩
  | crcClr => exact ⟨fun _ _ => .ok { res := some 0, crc := some 0 }, fun _ => rfl⟩
  | crcUpd len seed =>
    exact ⟨fun a c =>
      let d := pecFeed (if seed then 0 else c) (bytesOf len a)
      .ok { res := some (zext 64 d), crc := some d }, fun _ => rfl⟩

/-- Every command is an end of R31's kind: what it decided, committed or recorded. -/
theorem exec_is_finish (i : Instr) (s : State) : ∃ r, exec i s = finish r s := by
  obtain ⟨f, hf⟩ := exec_reads_opa_and_crc i
  exact ⟨_, hf s⟩

/-- What a command can do to a state. -/
theorem exec_cases {i : Instr} {s t : State} (h : exec i s = .next t) :
    (∃ w, t = commit w s) ∨ ∃ e, t = recordError e s := by
  obtain ⟨r, hr⟩ := exec_is_finish i s
  rw [hr] at h
  cases r with
  | ok w => exact .inl ⟨w, by simpa using h.symm⟩
  | error e => exact .inr ⟨e, by simpa using h.symm⟩

/-! ### The register map -/

theorem ofOffset_offset (r : Reg) : Reg.ofOffset r.offset = some r := by cases r <;> rfl

theorem offset_ofOffset {n : Nat} {r : Reg} (h : Reg.ofOffset n = some r) : r.offset = n := by
  unfold Reg.ofOffset at h
  split at h <;> cases h <;> rfl

theorem readOffset_mapped (r : Reg) (s : State) : readOffset r.offset s = r.read s := by
  simp [readOffset, ofOffset_offset]

theorem writeOffset_mapped (r : Reg) (v : Word) (s : State) : writeOffset r.offset v s = r.write v s := by
  simp [writeOffset, ofOffset_offset]

theorem inWindow_iff (offset : Int) : inWindow offset = true ↔ 0 ≤ offset ∧ offset < 64 := by
  simp [inWindow]

theorem admitted_iff (offset : Int) (size : Nat) : admitted offset size = true ↔ size = 4 ∧ offset % 4 = 0 := by
  simp [admitted]

theorem register_inWindow (r : Reg) : inWindow r.offset = true := by cases r <;> rfl

theorem register_admitted (r : Reg) : admitted r.offset 4 = true := by cases r <;> rfl

/-! ### CMD writes and register writes -/

theorem writeCmd_of_decode {w : Word} {i : Instr} (h : decode w = .ok i) (s : State) :
    writeCmd w s = exec i { s with cmd := w } := by
  simp [writeCmd, h]

theorem writeCmd_of_illegal {w : Word} {e : DecodeError} (h : decode w = .error e) (s : State) :
    writeCmd w s = .next (recordError .illegalCmd { s with cmd := w }) := by
  simp [writeCmd, h]

/-- What a CMD write can do: results committed by the command the word decodes to, or one error recorded, in the state that
already holds the word. -/
theorem writeCmd_next (w : Word) (s : State) :
    ∃ t, writeCmd w s = .next t ∧
      ((∃ i r, decode w = .ok i ∧ exec i { s with cmd := w } = .next t ∧ t = commit r { s with cmd := w }) ∨
        ∃ e, t = recordError e { s with cmd := w }) := by
  cases h : decode w with
  | error e => exact ⟨_, writeCmd_of_illegal h s, .inr ⟨_, rfl⟩⟩
  | ok i =>
    obtain ⟨r, hr⟩ := exec_is_finish i { s with cmd := w }
    obtain ⟨t, ht, hc⟩ := finish_next r { s with cmd := w }
    refine ⟨t, by rw [writeCmd_of_decode h, hr, ht], ?_⟩
    obtain ⟨d, -, rfl⟩ | ⟨e, -, rfl⟩ := hc
    · exact .inl ⟨i, d, rfl, hr.trans ht, rfl⟩
    · exact .inr ⟨e, rfl⟩

/-- A register write answers a next state, whatever the register. -/
theorem Reg.write_next (r : Reg) (v : Word) (s : State) : ∃ t, r.write v s = .next t := by
  cases r with
  | cmd => obtain ⟨t, ht, -⟩ := writeCmd_next v s; exact ⟨t, ht⟩
  | _ => exact ⟨_, rfl⟩

/-- A register write leaves the reset level, the pending events, the answers and the free-value counter alone. -/
theorem Reg.write_frame {r : Reg} {v : Word} {s t : State} (h : r.write v s = .next t) :
    t.resetAsserted = s.resetAsserted ∧ t.pending = s.pending ∧ t.responses = s.responses ∧
      t.openCount = s.openCount := by
  cases r with
  | cmd =>
    obtain ⟨t', ht, hc⟩ := writeCmd_next v s
    obtain rfl : t' = t := by simpa [Reg.write, ht] using h
    obtain ⟨i, d, -, -, rfl⟩ | ⟨e, rfl⟩ := hc <;> simp
  | _ => cases h; simp

end Sys2Proof.Machine
end

