-- ==== Sys2Proof/Laws/PerInstr.lean ====
section
/-! SUPPORT. A law of every command as syntax: the word a well-formed command is encoded to lies in the row R67 gives its
operation (spec/30_encoding.md R67, R71). -/

namespace Sys2Proof

/-- The operation of a command (R67). -/
def Instr.op : Instr → Op
  | .nop => .nop
  | .twosDec _ => .twosDec
  | .twosEnc _ => .twosEnc
  | .b2u _ _ => .b2u
  | .u2b _ _ => .u2b
  | .lin11Dec => .lin11Dec
  | .lin11Enc _ => .lin11Enc
  | .ulin16Dec _ => .ulin16Dec
  | .ulin16Enc _ => .ulin16Enc
  | .vmodeDec => .vmodeDec
  | .crcClr => .crcClr
  | .crcUpd _ _ => .crcUpd

namespace Laws.WordShape

/-- The word selects its operation's row: `(w & mask) = match`. -/
def Statement (i : Instr) : Prop := i.wellFormed = true → encode i &&& i.op.mask = i.op.pattern

theorem of_width {f : Nat → Instr} (hwf : ∀ n, (f n).wellFormed = widthEncodable n)
    (h : ∀ n : Fin 128, encode (f n) &&& (f n).op.mask = (f n).op.pattern) (n : Nat) : Statement (f n) := by
  intro hn
  rw [hwf] at hn
  exact h ⟨n, by simp at hn; omega⟩

theorem of_length {f : Nat → Instr} (hwf : ∀ n, (f n).wellFormed = lengthEncodable n)
    (h : ∀ n : Fin 8, encode (f (n + 1)) &&& (f (n + 1)).op.mask = (f (n + 1)).op.pattern) (n : Nat) :
    Statement (f n) := by
  intro hn
  rw [hwf] at hn
  simp at hn
  obtain ⟨k, rfl⟩ : ∃ k, n = k + 1 := ⟨n - 1, by omega⟩
  exact h ⟨k, by omega⟩

theorem of_exponent {f : Int → Instr} (hwf : ∀ e, (f e).wellFormed = exponentEncodable e)
    (h : ∀ k : Fin 32, encode (f (k - 16)) &&& (f (k - 16)).op.mask = (f (k - 16)).op.pattern) (e : Int) :
    Statement (f e) := by
  intro he
  rw [hwf] at he
  simp at he
  obtain ⟨k, hk⟩ : ∃ k : Fin 32, e = (k : Int) - 16 := ⟨⟨(e + 16).toNat, by omega⟩, by simp; omega⟩
  exact hk ▸ h k

theorem nop : Statement .nop := fun _ => by decide
theorem twosDec (n : Nat) : Statement (.twosDec n) := of_width (fun _ => rfl) (by decide +kernel) n
theorem twosEnc (n : Nat) : Statement (.twosEnc n) := of_width (fun _ => rfl) (by decide +kernel) n
theorem b2u (len : Nat) (order : ByteOrder) : Statement (.b2u len order) :=
  of_length (f := fun n => .b2u n order) (fun _ => rfl) (by cases order <;> decide +kernel) len
theorem u2b (len : Nat) (order : ByteOrder) : Statement (.u2b len order) :=
  of_length (f := fun n => .u2b n order) (fun _ => rfl) (by cases order <;> decide +kernel) len
theorem lin11Dec : Statement .lin11Dec := fun _ => by decide
theorem lin11Enc (e : Int) : Statement (.lin11Enc e) := of_exponent (fun _ => rfl) (by decide +kernel) e
theorem ulin16Dec (e : Int) : Statement (.ulin16Dec e) := of_exponent (fun _ => rfl) (by decide +kernel) e
theorem ulin16Enc (e : Int) : Statement (.ulin16Enc e) := of_exponent (fun _ => rfl) (by decide +kernel) e
theorem vmodeDec : Statement .vmodeDec := fun _ => by decide
theorem crcClr : Statement .crcClr := fun _ => by decide
theorem crcUpd (len : Nat) (seed : Bool) : Statement (.crcUpd len seed) :=
  of_length (f := fun n => .crcUpd n seed) (fun _ => rfl) (by cases seed <;> decide +kernel) len

end Laws.WordShape

end Sys2Proof
end

