-- ==== Sys2Proof/Laws/Step.lean ====
section
/-! SUPPORT. What a step does with each kind of event, and everything a step can do, said once. -/

namespace Sys2Proof.Machine

@[simp] theorem step_idle {s : State} (h : s.pending = []) : step s = .next s := by
  simp [step, nextEvent, h]

theorem step_of_pending {s : State} {ev : HostEvent} {rest : List HostEvent} (h : s.pending = ev :: rest) :
    step s = handle ev { s with pending := rest } := by
  simp [step, nextEvent, h]

/-- An admitted read of a register: answered, nothing else changed. -/
theorem step_read {s : State} {rest : List HostEvent} {offset : Int} (hr : s.resetAsserted = false)
    (hw : inWindow offset = true) (ha : admitted offset 4 = true) (h : s.pending = .access (.read offset 4) :: rest) :
    step s = .next { s with pending := rest, responses := .data (readOffset offset.toNat s) :: s.responses } := by
  rw [step_of_pending h]
  simp [handle, hostAccess, hostRead, hr, hw, ha, respond]
  rfl

/-- An admitted write: answered, and the register's effect. -/
theorem step_write {s : State} {rest : List HostEvent} {offset : Int} {v : Word} (hr : s.resetAsserted = false)
    (hw : inWindow offset = true) (ha : admitted offset 4 = true) (h : s.pending = .access (.write offset 4 v) :: rest) :
    step s = writeOffset offset.toNat v { s with pending := rest, responses := .written :: s.responses } := by
  rw [step_of_pending h]
  simp [handle, hostAccess, hostWrite, hr, hw, ha, respond]

/-- A write of a mapped register (`wr REG, v`). -/
theorem step_wr {s : State} {rest : List HostEvent} {r : Reg} {v : Word} (hr : s.resetAsserted = false)
    (h : s.pending = wr r v :: rest) :
    step s = r.write v { s with pending := rest, responses := .written :: s.responses } := by
  rw [step_write hr (register_inWindow r) (register_admitted r) h, Int.toNat_natCast, writeOffset_mapped]

/-- The command a CMD write runs. -/
theorem step_exec {s : State} {rest : List HostEvent} {w : Word} {i : Instr} (hr : s.resetAsserted = false)
    (h : s.pending = wr .cmd w :: rest) (hd : decode w = .ok i) :
    step s = exec i { s with cmd := w, pending := rest, responses := .written :: s.responses } := by
  rw [step_wr hr h]
  exact writeCmd_of_decode hd _

/-- Everything an access can do to a state out of reset. -/
theorem hostAccess_cases {a : HostAccess} {s t : State} (h : hostAccess a s = .next t) :
    s.resetAsserted = false ∧
      ((∃ r, t = respond r s) ∨
        ∃ (r : Reg) (v : Word), a = .write r.offset 4 v ∧ r.write v (respond .written s) = .next t) := by
  cases hr : s.resetAsserted with
  | true => simp [hostAccess, hr] at h
  | false =>
    refine ⟨rfl, ?_⟩
    simp only [hostAccess, hr] at h
    cases a with
    | read offset size =>
      simp only [hostRead, Bool.false_eq_true, if_false] at h
      refine .inl ?_
      split at h
      · exact ⟨_, by simpa using h.symm⟩
      · split at h <;> exact ⟨_, by simpa using h.symm⟩
    | write offset size v =>
      simp only [hostWrite, Bool.false_eq_true, if_false] at h
      split at h
      · exact .inl ⟨_, by simpa using h.symm⟩
      · split at h
        · exact .inl ⟨_, by simpa using h.symm⟩
        · rename_i hw ha
          simp only [Bool.not_eq_true', Bool.not_eq_false] at hw ha
          obtain ⟨rfl, -⟩ := (admitted_iff _ _).1 ha
          obtain ⟨h0, -⟩ := (inWindow_iff _).1 hw
          cases ho : Reg.ofOffset offset.toNat with
          | none => exact .inl ⟨_, by simpa [writeOffset, ho] using h.symm⟩
          | some r =>
            refine .inr ⟨r, v, ?_, by simpa [writeOffset, ho] using h⟩
            rw [offset_ofOffset ho, Int.toNat_of_nonneg h0]

/-- Everything a step can do. -/
theorem step_cases {s t : State} (h : step s = .next t) :
    (s.pending = [] ∧ t = s) ∨
    ∃ ev rest, s.pending = ev :: rest ∧
      ((∃ a r, ev = .access a ∧ s.resetAsserted = false ∧ t = respond r { s with pending := rest }) ∨
       (∃ (r : Reg) (v : Word), ev = wr r v ∧ s.resetAsserted = false ∧
          r.write v (respond .written { s with pending := rest }) = .next t) ∨
       (ev = .assertReset ∧ t = assertReset { s with pending := rest }) ∨
       (ev = .releaseReset ∧ t = releaseReset { s with pending := rest }) ∨
       (∃ v delay r k, ev = .cmdWriteThenReset v delay ∧ s.resetAsserted = false ∧
          t = assertReset { s with pending := rest, responses := r :: s.responses, openCount := k })) := by
  cases hp : s.pending with
  | nil => exact .inl ⟨rfl, by simpa [hp] using h.symm⟩
  | cons ev rest =>
    refine .inr ⟨ev, rest, rfl, ?_⟩
    rw [step_of_pending hp] at h
    cases ev with
    | access a =>
      obtain ⟨hr, ⟨r, rfl⟩ | ⟨r, v, rfl, hw⟩⟩ := hostAccess_cases h
      · exact .inl ⟨a, r, rfl, hr, rfl⟩
      · exact .inr (.inl ⟨r, v, rfl, hr, hw⟩)
    | assertReset => exact .inr (.inr (.inl ⟨rfl, by simpa [handle] using h.symm⟩))
    | releaseReset => exact .inr (.inr (.inr (.inl ⟨rfl, by simpa [handle] using h.symm⟩)))
    | cmdWriteThenReset v delay =>
      refine .inr (.inr (.inr (.inr ?_)))
      obtain hr | hr := Bool.eq_false_or_eq_true s.resetAsserted
      · simp [handle, cmdWriteThenReset, hr] at h
      · obtain ⟨t', ht, -⟩ := writeCmd_next v (respond .written { s with pending := rest })
        obtain ⟨-, hp', hq, hc⟩ := Reg.write_frame (r := .cmd) (by simpa [Reg.write] using ht)
        simp only [handle, cmdWriteThenReset, hr, Bool.false_eq_true, if_false] at h
        split at h
        · exact ⟨v, delay, _, _, rfl, hr, (Host.Outcome.next.inj h).symm⟩
        · simp only [hr] at ht
          rw [ht] at h
          refine ⟨v, delay, .written, s.openCount, rfl, hr, (Host.Outcome.next.inj h).symm.trans ?_⟩
          simp only [assertReset, hp', hq, hc, respond]

/-! ### What comes later does not matter -/

/-- Ending a command commutes with changing the pending events. -/
theorem finish_withPending (r : Except CmdError Results) (s t : State) (p : List HostEvent) (h : finish r s = .next t) :
    finish r { s with pending := p } = .next { t with pending := p } := by
  cases r <;> cases h <;> rfl

/-- A command does the same whatever is pending. -/
theorem exec_withPending {i : Instr} {s t : State} (p : List HostEvent) (h : exec i s = .next t) :
    exec i { s with pending := p } = .next { t with pending := p } := by
  obtain ⟨f, hf⟩ := exec_reads_opa_and_crc i
  rw [hf] at h ⊢
  exact finish_withPending _ _ _ p h

/-- A CMD write does the same whatever is pending. -/
theorem writeCmd_withPending {w : Word} {s t : State} (p : List HostEvent) (h : writeCmd w s = .next t) :
    writeCmd w { s with pending := p } = .next { t with pending := p } := by
  simp only [writeCmd] at h ⊢
  split
  · rename_i i hd
    rw [hd] at h
    exact exec_withPending (s := { s with cmd := w }) p h
  · rename_i i hd
    rw [hd] at h
    cases h; rfl

/-- A register write does the same whatever is pending. -/
theorem reg_withPending {r : Reg} {v : Word} {s t : State} (p : List HostEvent) (h : r.write v s = .next t) :
    r.write v { s with pending := p } = .next { t with pending := p } := by
  cases r with
  | cmd => exact writeCmd_withPending p h
  | status => cases h; simp only [Reg.write, writeStatus]; split <;> rfl
  | _ => cases h; rfl

theorem readOffset_withPending (n : Nat) (s : State) (p) : readOffset n { s with pending := p } = readOffset n s := by
  unfold readOffset; split
  · rename_i r _; cases r <;> rfl
  · rfl

theorem hostAccess_withPending {a : HostAccess} {s t : State} (p : List HostEvent) (h : hostAccess a s = .next t) :
    hostAccess a { s with pending := p } = .next { t with pending := p } := by
  have hr := (hostAccess_cases h).1
  cases a with
  | read o n =>
    simp only [hostAccess, hr, hostRead, Bool.false_eq_true, if_false] at h ⊢
    have hro := readOffset_withPending o.toNat s p
    simp only [hr] at hro
    split_ifs at h ⊢ <;> cases h <;> simp only [hr, respond, hro]
  | write o n v =>
    simp only [hostAccess, hr, hostWrite, Bool.false_eq_true, if_false] at h ⊢
    split_ifs at h ⊢
    · cases h; simp only [hr, respond]
    · cases h; simp only [hr, respond]
    · simp only [writeOffset] at h ⊢
      split
      · rename_i r ho
        rw [ho] at h
        have := reg_withPending p h
        simpa only [hr, respond] using this
      · rename_i ho
        rw [ho] at h
        cases h; simp only [hr, respond]

/-- An event does the same whatever comes after it (R50). -/
theorem handle_withPending {ev : HostEvent} {s t : State} (p : List HostEvent) (h : handle ev s = .next t) :
    handle ev { s with pending := p } = .next { t with pending := p } := by
  cases ev with
  | assertReset => cases h; rfl
  | releaseReset => cases h; rfl
  | access a => exact hostAccess_withPending p h
  | cmdWriteThenReset v d =>
    obtain hr | hr := Bool.eq_false_or_eq_true s.resetAsserted
    · simp [handle, cmdWriteThenReset, hr] at h
    simp only [handle, cmdWriteThenReset, hr, Bool.false_eq_true, if_false] at h ⊢
    split_ifs at h ⊢
    · cases h; rfl
    obtain ⟨t', ht, -⟩ := writeCmd_next v (respond .written s)
    rw [ht] at h
    cases h
    have := writeCmd_withPending p ht
    simp only [respond, hr] at this ⊢
    rw [this]; rfl

/-- An event takes nothing off the list and adds nothing to it. -/
theorem handle_keeps_pending {ev : HostEvent} {s t : State} (h : handle ev s = .next t) : t.pending = s.pending := by
  have : step { s with pending := ev :: s.pending } = .next t := by
    rw [step_of_pending (ev := ev) (rest := s.pending) rfl]; exact h
  obtain ⟨hp, rfl⟩ | ⟨ev', rest, hp, hc⟩ := step_cases this
  · simp at hp
  simp at hp
  obtain ⟨rfl, rfl⟩ := hp
  obtain ⟨a, r, rfl, hr, rfl⟩ | ⟨r, v, rfl, hr, hw⟩ | ⟨rfl, rfl⟩ | ⟨rfl, rfl⟩ | ⟨v, d, r, k, rfl, hr, rfl⟩ := hc <;> try rfl
  exact (Reg.write_frame hw).2.1

/-! ### Runs -/

/-- An event that the platform may issue answers a next state (R190), with the reset level it leaves. -/
theorem handle_next {ev : HostEvent} {s : State} (h : eventAllowed s.resetAsserted ev = true) :
    ∃ t, handle ev s = .next t ∧ t.resetAsserted = resetAfter s.resetAsserted ev := by
  cases ev with
  | assertReset => exact ⟨_, rfl, rfl⟩
  | releaseReset => exact ⟨_, rfl, rfl⟩
  | access a =>
    simp [eventAllowed] at h
    cases a with
    | read o n =>
      simp only [handle, hostAccess, hostRead, h]
      split
      · rename_i h; cases h
      split
      · exact ⟨_, rfl, by simp [resetAfter, h]⟩
      split <;> exact ⟨_, rfl, by simp [resetAfter, h]⟩
    | write o n v =>
      simp only [handle, hostAccess, hostWrite, h]
      split
      · rename_i h; cases h
      split
      · exact ⟨_, rfl, by simp [resetAfter, h]⟩
      split
      · exact ⟨_, rfl, by simp [resetAfter, h]⟩
      simp only [writeOffset]
      split
      · rename_i r _
        obtain ⟨t, ht⟩ := Reg.write_next r v (respond .written s)
        exact ⟨t, ht, by simpa [resetAfter, h] using (Reg.write_frame ht).1⟩
      · exact ⟨_, rfl, by simp [resetAfter, h]⟩
  | cmdWriteThenReset v d =>
    simp [eventAllowed] at h
    simp only [handle, cmdWriteThenReset, h]
    split
    · rename_i h; cases h
    split
    · exact ⟨_, rfl, rfl⟩
    obtain ⟨t', ht, -⟩ := writeCmd_next v (respond .written s)
    rw [ht]
    exact ⟨_, rfl, rfl⟩

/-- One step of a run. -/
theorem run_succ (k : Nat) {s t : State} (h : step s = .next t) : core.run (k + 1) s = core.run k t := by
  simp [Host.Core.run, core, h]

/-- A run in two parts. -/
theorem run_add (j k : Nat) {s t : State} (h : core.run j s = .next t) : core.run (j + k) s = core.run k t := by
  induction j generalizing s with
  | zero => cases h; rw [Nat.zero_add]
  | succ j ih =>
    cases hs : step s with
    | next u =>
      rw [run_succ j hs] at h
      rw [Nat.succ_add, Nat.succ_eq_add_one, run_succ _ hs, ih h]
    | fault f => simp [Host.Core.run, core, hs] at h
    | refused r => simp [Host.Core.run, core, hs] at h

/-- The pseudo-command `ld OPA, imm64` (R72): two steps, and `OPA` holds the operand. -/
theorem run_ldOpa {x : DWord} {rest : List HostEvent} {s : State} (hr : s.resetAsserted = false)
    (h : s.pending = ldOpa x ++ rest) :
    core.run 2 s =
      .next { s with opa := x, pending := rest, responses := .written :: .written :: s.responses } := by
  rw [run_succ 1 (step_wr (r := .opaLo) hr h), run_succ 0 (step_wr (r := .opaHi) (by exact hr) rfl)]
  have hx : x.extractLsb 63 32 ++
      BitVec.extractLsb 31 0 (s.opa.extractLsb 63 32 ++ x.extractLsb 31 0 : DWord) = x := by
    have h1 : BitVec.extractLsb 31 0 (s.opa.extractLsb 63 32 ++ x.extractLsb 31 0 : DWord) = x.extractLsb 31 0 := by
      apply BitVec.eq_of_toNat_eq
      have := (x.extractLsb 31 0).isLt
      rw [BitVec.extractLsb_toNat, toNat_append_eq]
      simp
    rw [h1]
    apply BitVec.eq_of_toNat_eq
    have := x.isLt
    rw [toNat_append_eq]
    simp [Nat.shiftRight_eq_div_pow]
    omega
  show Host.Outcome.next _ = _
  simp only [writeOpaHi, writeOpaLo]
  congr 2

end Sys2Proof.Machine
end

