-- ==== Sys2Proof/Tests/Slice0.lean ====
section
/-! SUPPORT. Tests: well-formedness, words written out from the spec's encodings, one step on vectors of
spec/95_test_vectors.md, the register port, and a witness for every statement with hypotheses. -/

namespace Sys2Proof.Tests

open Sys2Proof Sys2Proof.Machine Sys2Proof.Stated

/-! ## Well-formedness: each check refuses an ill-formed term and admits the bounds (R71) -/

theorem test_wf_twosDec_width : (Instr.twosDec 128).wellFormed = false ∧ (Instr.twosDec 127).wellFormed = true := by decide
theorem test_wf_twosEnc_width : (Instr.twosEnc 128).wellFormed = false ∧ (Instr.twosEnc 0).wellFormed = true := by decide
theorem test_wf_b2u_length : (Instr.b2u 0 .little).wellFormed = false ∧ (Instr.b2u 9 .big).wellFormed = false := by decide
theorem test_wf_u2b_length : (Instr.u2b 0 .big).wellFormed = false ∧ (Instr.u2b 9 .little).wellFormed = false := by decide
theorem test_wf_lin11Enc_exponent : (Instr.lin11Enc 16).wellFormed = false ∧ (Instr.lin11Enc (-17)).wellFormed = false := by
  decide
theorem test_wf_ulin16Dec_exponent :
    (Instr.ulin16Dec 16).wellFormed = false ∧ (Instr.ulin16Dec (-17)).wellFormed = false := by decide
theorem test_wf_ulin16Enc_exponent :
    (Instr.ulin16Enc 16).wellFormed = false ∧ (Instr.ulin16Enc (-17)).wellFormed = false := by decide
theorem test_wf_crcUpd_length : (Instr.crcUpd 0 true).wellFormed = false ∧ (Instr.crcUpd 9 false).wellFormed = false := by
  decide

/-! ## Decoding: the words, bit by bit from R61's fields -/

/-- OP = 0001, N = 0000101. -/
theorem test_decode_twosDec : decode 0b0000000_00000_000_0_0_000_0_0000101_0001#32 = .ok (.twosDec 5) := by decide
/-- OP = 0010, N = 1111111. -/
theorem test_decode_twosEnc : decode 0b0000000_00000_000_0_0_000_0_1111111_0010#32 = .ok (.twosEnc 127) := by decide
/-- OP = 0011, NB = 010, BE = 1. -/
theorem test_decode_b2u : decode 0b0000000_00000_000_0_1_010_0_0000000_0011#32 = .ok (.b2u 3 .big) := by decide
/-- OP = 0100, NB = 111, BE = 0. -/
theorem test_decode_u2b : decode 0b0000000_00000_000_0_0_111_0_0000000_0100#32 = .ok (.u2b 8 .little) := by decide
/-- OP = 0101. -/
theorem test_decode_lin11Dec : decode 0b0000000_00000_000_0_0_000_0_0000000_0101#32 = .ok .lin11Dec := by decide
/-- OP = 0110, EXP = 10000. -/
theorem test_decode_lin11Enc : decode 0b0000000_10000_000_0_0_000_0_0000000_0110#32 = .ok (.lin11Enc (-16)) := by decide
/-- OP = 0111, EXP = 01111. -/
theorem test_decode_ulin16Dec : decode 0b0000000_01111_000_0_0_000_0_0000000_0111#32 = .ok (.ulin16Dec 15) := by decide
/-- OP = 1000, EXP = 11111. -/
theorem test_decode_ulin16Enc : decode 0b0000000_11111_000_0_0_000_0_0000000_1000#32 = .ok (.ulin16Enc (-1)) := by decide
/-- OP = 1001, OP = 1010 and OP = 0000. -/
theorem test_decode_plain :
    decode 0b1001#32 = .ok .vmodeDec ∧ decode 0b1010#32 = .ok .crcClr ∧ decode 0b0000#32 = .ok .nop := by decide
/-- OP = 1011, NB = 011, S = 1. -/
theorem test_decode_crcUpd : decode 0b0000000_00000_000_1_0_011_0_0000000_1011#32 = .ok (.crcUpd 4 true) := by decide
/-- Bit 11 is reserved in every word, and OP = 1100 is no command. -/
theorem test_decode_reserved :
    decode 0b0000000_00000_000_0_0_000_1_0000101_0001#32 = .error .reservedField ∧
      decode 0b1100#32 = .error .reservedOpcode := by decide
/-- The host's numbering: one 32-bit word. -/
theorem test_decodeTableWord :
    decodeTableWord 32 0x00000051 = some (.twosDec 5) ∧ decodeTableWord 32 0x0000000C = none := by decide

/-! ## One step of each command, from the reset state with OPA and CRC set -/

/-- RES, RESE, RESM, CRC and STATUS after the host wrote `w` to CMD. -/
def ran (w : Nat) (opa : DWord) (crc : Byte) : Option (List Nat) :=
  match step (State.withFetchWord { State.reset with opa := opa, crc := crc } 32 w) with
  | .next t => some [t.res.toNat, t.rese.toNat, t.resm.toNat, t.crc.toNat, (statusWord t).toNat]
  | _ => none

/-- Vector T-1. -/
theorem test_nop_changes_no_result :
    ran 0x00000000 0x0000000000001234 0x00 = some [0x0000000000000000, 0x00000000, 0x00000000, 0x00, 0x00000000] := by decide

/-- Vector T-6. -/
theorem test_twosDec_sign_extends_and_ignores_high_bits :
    ran 0x00000051 0x0000000000000034 0x00 = some [0xFFFFFFFFFFFFFFF4, 0x00000000, 0x00000000, 0x00, 0x00000000] := by decide

/-- Vector T-16. -/
theorem test_twosDec_width_65_is_badWidth :
    ran 0x00000411 0x0000000000000014 0x00 = some [0x0000000000000000, 0x00000000, 0x00000000, 0x00, 0x00000102] := by decide

/-- Vector T-23. -/
theorem test_twosEnc_wraps :
    ran 0x000000B2 0xFFFFFFFFFFFFFBFF 0x00 = some [0x00000000000003FF, 0x00000000, 0x00000000, 0x00, 0x00000000] := by decide

/-- Vector T-27. -/
theorem test_twosEnc_width_63 :
    ran 0x000003F2 0x8000000000000000 0x00 = some [0x0000000000000000, 0x00000000, 0x00000000, 0x00, 0x00000000] := by decide

/-- Vector B-7. -/
theorem test_b2u_big_three_bytes :
    ran 0x0000A003 0x00000000AABBCCDD 0x00 = some [0x0000000000DDCCBB, 0x00000000, 0x00000000, 0x00, 0x00000000] := by decide

/-- Vector B-6. -/
theorem test_b2u_big_all_bytes :
    ran 0x0000F003 0x0102030405060708 0x00 = some [0x0807060504030201, 0x00000000, 0x00000000, 0x00, 0x00000000] := by decide

/-- Vector B-12. -/
theorem test_u2b_big_truncates :
    ran 0x00009004 0x00000000001234CD 0x00 = some [0x000000000000CD34, 0x00000000, 0x00000000, 0x00, 0x00000000] := by decide

/-- Vector B-15. -/
theorem test_u2b_negative :
    ran 0x00001004 0xFFFFFFFFFFFFFFFF 0x00 = some [0x0000000000000000, 0x00000000, 0x00000000, 0x00, 0x00000103] := by decide

/-- Vector L1-3b. -/
theorem test_lin11Dec_printed_word_of_conflict_C1 :
    ran 0x00000005 0x0000000000007FFE 0x00 = some [0xC0F0000000000000, 0x0000000F, 0xFFFFFFFE, 0x00, 0x00000000] := by decide

/-- Vector L-9. -/
theorem test_lin11Dec_most_negative :
    ran 0x00000005 0x0000000000007C00 0x00 = some [0xC180000000000000, 0x0000000F, 0xFFFFFC00, 0x00, 0x00000000] := by decide

/-- Vector L-20. -/
theorem test_lin11Enc_tie_to_even_negative :
    ran 0x00000006 0xC004000000000000 0x00 = some [0x00000000000007FE, 0x00000000, 0xFFFFFFFE, 0x00, 0x00000000] := by decide

/-- Vector L-30. -/
theorem test_lin11Enc_mantissa_wraps :
    ran 0x01700006 0x400A666666666666 0x00 = some [0x000000000000BE9A, 0xFFFFFFF7, 0xFFFFFE9A, 0x00, 0x00000000] := by decide

/-- Vector U-3. -/
theorem test_ulin16Dec_largest :
    ran 0x00F00007 0x000000000000FFFF 0x00 = some [0x41DFFFE000000000, 0x0000000F, 0x0000FFFF, 0x00, 0x00000000] := by decide

/-- Vector U-8. -/
theorem test_ulin16Dec_ignores_high_bits :
    ran 0x01400007 0x0000000000012345 0x00 = some [0x4001A28000000000, 0xFFFFFFF4, 0x00002345, 0x00, 0x00000000] := by decide

/-- Vector U-13. -/
theorem test_ulin16Enc_minus_half_is_zero :
    ran 0x00000008 0xBFE0000000000000 0x00 = some [0x0000000000000000, 0x00000000, 0x00000000, 0x00, 0x00000000] := by decide

/-- Vector U-19. -/
theorem test_ulin16Enc_tie_above_is_range :
    ran 0x00000008 0x40EFFFF000000000 0x00 = some [0x0000000000000000, 0x00000000, 0x00000000, 0x00, 0x00000105] := by decide

/-- Vector V-2. -/
theorem test_vmodeDec_ignores_bits_7_5 :
    ran 0x00000009 0x0000000000000034 0x00 = some [0xFFFFFFFFFFFFFFF4, 0xFFFFFFF4, 0x00000000, 0x00, 0x00000000] := by decide

/-- Vector V-5. -/
theorem test_vmodeDec_most_negative :
    ran 0x00000009 0x0000000000000010 0x00 = some [0xFFFFFFFFFFFFFFF0, 0xFFFFFFF0, 0x00000000, 0x00, 0x00000000] := by decide

/-- Vector C-1. -/
theorem test_crcClr_zeroes :
    ran 0x0000000A 0x0000000000001234 0xF4 = some [0x0000000000000000, 0x00000000, 0x00000000, 0x00, 0x00000000] := by decide

/-- Vector C-11. -/
theorem test_crcUpd_continues :
    ran 0x0000000B 0x0000000000000039 0xC7 = some [0x00000000000000F4, 0x00000000, 0x00000000, 0xF4, 0x00000000] := by decide

/-- Vector C-10. -/
theorem test_crcUpd_eight_bytes_seeded :
    ran 0x0001700B 0x3837363534333231 0x00 = some [0x00000000000000C7, 0x00000000, 0x00000000, 0xC7, 0x00000000] := by decide +kernel

/-- Vector E-1. -/
theorem test_illegal_reserved_opcode :
    ran 0x0000000C 0x0000000000000000 0x00 = some [0x0000000000000000, 0x00000000, 0x00000000, 0x00, 0x00000101] := by decide

/-- Vector E-17. -/
theorem test_illegal_unused_field_before_nonfinite :
    ran 0x00010008 0x7FF8000000000000 0x00 = some [0x0000000000000000, 0x00000000, 0x00000000, 0x00, 0x00000101] := by decide

/-! ## The register port -/

/-- The reset state with events pending. -/
def withEvents (evs : List HostEvent) : State := { State.reset with pending := evs }

/-- What the host's accesses were answered with, oldest first, after as many steps as there are events. -/
def answers (evs : List HostEvent) : Option (List BusResponse) :=
  match core.run evs.length (withEvents evs) with
  | .next t => some (State.responses t).reverse
  | _ => none

/-- Vector M-3. -/
theorem test_port_halves_of_opa :
    answers [wr .opaHi 0x01234567, wr .opaLo 0x89ABCDEF, wr .opaLo 0x11111111, rd .opaHi, rd .opaLo] =
      some [.written, .written, .written, .data 0x01234567, .data 0x11111111] := by decide
/-- Vector M-6. -/
theorem test_port_status_write_one_to_clear :
    answers [wr .cmd 0xC, rd .cmd, rd .status, wr .status 0xF, rd .status, wr .status 0x100, rd .status] =
      some [.written, .data 0xC, .data 0x101, .written, .data 0x101, .written, .data 0x1] := by decide
/-- Vector M-10: an 8-bit write at 0x08, a 32-bit read at 0x02, a 16-bit write at 0x00. -/
theorem test_port_access_fault :
    answers [.access (.write 0x08 1 0xFF), .access (.read 0x02 4), .access (.write 0x00 2 0xC), rd .status] =
      some [.accessFault, .accessFault, .accessFault, .data 0] := by decide
/-- Vector M-5. -/
theorem test_port_unmapped :
    answers [.access (.write 0x24 4 0xFFFFFFFF), .access (.read 0x24 4), .access (.read 0x3C 4)] =
      some [.written, .data 0, .data 0] := by decide
/-- Offsets just outside the window (R40). -/
theorem test_port_outside :
    answers [.access (.read 0x40 4), .access (.read (-4) 4)] = some [.notDecoded, .notDecoded] := by decide
/-- Vector M-9: the byte 01 fed twice. -/
theorem test_port_cmd_not_idempotent :
    answers [wr .opaLo 1, wr .cmd 0xB, wr .cmd 0xB, rd .crc] = some [.written, .written, .written, .data 0x12] := by decide +kernel
/-- A read while reset is asserted is refused, and reset zeroes OPA (R190). -/
theorem test_port_reset :
    answers [wr .opaLo 7, .assertReset, rd .opaLo] = none ∧
      answers [wr .opaLo 7, .assertReset, .releaseReset, rd .opaLo] = some [.written, .data 0] := by decide

/-! ## Witnesses: for each statement with hypotheses, states and operands that meet them, at the bounds of each clause -/

theorem witness_DecodeOfEncodeIsTheCommand : (Instr.lin11Enc (-16)).wellFormed = true := by decide
theorem witness_EncodeOfDecodeIsTheWord : decode 0x00F00008 = .ok (.ulin16Enc 15) := by decide
theorem witness_DecodeFollowsTheOpcodeTable :
    (⟨0x00000009, 0xFFFFFFFF, fun _ => .vmodeDec⟩ : Row).selects 0x9 ∧
      ∀ r ∈ opcodeTable, ¬ r.selects 0xC := by
  refine ⟨rfl, ?_⟩
  intro r hr
  simp only [opcodeTable, List.mem_cons, List.not_mem_nil, or_false] at hr
  rcases hr with rfl | rfl | rfl | rfl | rfl | rfl | rfl | rfl | rfl | rfl | rfl | rfl <;> simp [Row.selects]
theorem witness_ReservedBitsAreIllegal :
    12 ≤ (0xC : Word).toNat % 16 ∧ (bitsOf (0x811 : Word).toNat 11 1 = 1 ∧ ¬ usedBit ((0x811 : Word).toNat % 16) 11) ∧
      ((0x1 : Word).toNat = 1 + 16 * 0 ∧ (0x412 : Word).toNat = 2 + 16 * 65) := by
  refine ⟨by decide, ⟨by decide, ?_⟩, by decide, by decide⟩
  unfold usedBit
  decide
theorem witness_NopClearsOnlyErr : (0x100 : Word).toNat % 16 = 0 ∧ (0x100 : Word).toNat ≠ 0 := by decide
/-- Widths 1 and 64 run, 0 and 65 fail. -/
theorem witness_widths : (1 ≤ 1 ∧ 1 ≤ 64) ∧ (1 ≤ 64 ∧ 64 ≤ 64) ∧ (0 = 0 ∨ 64 < 0) ∧ (65 = 0 ∨ 64 < 65) := by decide
/-- Byte counts 1 and 8, and the operands at the sign boundary of U2B. -/
theorem witness_U2bWritesTheBytes :
    (1 ≤ 8 ∧ 8 ≤ 8) ∧ ({ State.reset with opa := 0x7FFFFFFFFFFFFFFF } : State).opa.toNat < 2 ^ 63 ∧
      2 ^ 63 ≤ ({ State.reset with opa := 0x8000000000000000 } : State).opa.toNat := by decide
/-- 1.0 is finite, +inf is not, and the exponents -16 and 15 are in range. -/
theorem witness_Lin11EncRoundsAndWraps :
    f64Finite 0x3FF0000000000000 ∧ ¬ f64Finite 0x7FF0000000000000 ∧ (-16 : Int) ≤ -16 ∧ (15 : Int) ≤ 15 := by
  unfold f64Finite; decide
/-- ULIN16_ENC at exponent 0: 65535.0 rounds to 65535, -1.0 to -1, 65536.0 to 65536; a NaN is not finite. -/
theorem witness_Ulin16EncRoundsOrFails :
    IsRne (f64Rat 0x40EFFFE000000000 * (2 : ℚ) ^ (-(0 : Int))) 65535 ∧
      IsRne (f64Rat 0xBFF0000000000000 * (2 : ℚ) ^ (-(0 : Int))) (-1) ∧
      IsRne (f64Rat 0x40F0000000000000 * (2 : ℚ) ^ (-(0 : Int))) 65536 ∧
      f64Finite 0x40EFFFE000000000 ∧ f64Finite 0xBFF0000000000000 ∧ f64Finite 0x40F0000000000000 ∧
      ¬ f64Finite 0x7FF8000000000000 := by
  have a : (0x40EFFFE000000000 : DWord).toNat = 0x40EFFFE000000000 := by decide
  have b : (0xBFF0000000000000 : DWord).toNat = 0xBFF0000000000000 := by decide
  have c : (0x40F0000000000000 : DWord).toNat = 0x40F0000000000000 := by decide
  refine ⟨?_, ?_, ?_, ?_⟩
  · unfold IsRne f64Rat bitsOf; rw [a]; norm_num
  · unfold IsRne f64Rat bitsOf; rw [b]; norm_num
  · unfold IsRne f64Rat bitsOf; rw [c]; norm_num
  · unfold f64Finite; decide
theorem witness_Binary64EncodeIsExact : (-1024 : Int) ≤ -1024 ∧ (65535 : Int) ≤ 65535 ∧ (-1024 : Int) ≠ 0 := by decide
/-- At width 64 the least value, at width 1 the greatest pattern, and the greatest value U2B takes. -/
theorem witness_IntegerRoundTrips :
    (-(2 ^ (64 - 1)) : Int) ≤ -(2 ^ 63) ∧ (-(2 ^ 63) : Int) ≤ 2 ^ (64 - 1) - 1 ∧ 1 < 2 ^ 1 ∧ 2 ^ 63 - 1 < 2 ^ 63 := by decide
theorem witness_Lin11RoundTrip : 0xFFFF < 65536 := by decide
/-- LIN11_DEC runs on the words 0x0001 and 0xBA00, which both decode to 1.0. -/
theorem witness_NonCanonicalWords :
    exec .lin11Dec { State.reset with opa := BitVec.ofNat 64 0xBA00 } =
      .next { State.reset with opa := 0xBA00, res := 0x3FF0000000000000, rese := 0xFFFFFFF7, resm := 0x200 } := by rfl
/-- -0.5 at exponent 0 is accepted, and its next state has `ERR = 0`. -/
theorem witness_Ulin16HalfUnitApproximation :
    f64Finite ({ State.reset with opa := 0xBFE0000000000000 } : State).opa ∧
      exec (.ulin16Enc 0) { State.reset with opa := 0xBFE0000000000000 } =
        .next { State.reset with opa := 0xBFE0000000000000 } := by
  refine ⟨?_, rfl⟩
  unfold f64Finite; decide
/-- A message of nine bytes in two chunks. -/
theorem witness_PecOfChunksIsTheMessagesCrc :
    ([[0x31, 0x32, 0x33, 0x34, 0x35, 0x36, 0x37, 0x38], [0x39]] : List (List Byte)) ≠ [] ∧
      (∀ c ∈ ([[0x31, 0x32, 0x33, 0x34, 0x35, 0x36, 0x37, 0x38], [0x39]] : List (List Byte)),
        1 ≤ c.length ∧ c.length ≤ 8) ∧
      (withEvents (pecChunks [[0x31, 0x32, 0x33, 0x34, 0x35, 0x36, 0x37, 0x38], [0x39]])).resetAsserted = false := by
  decide
theorem witness_PecSequenceComputesCrc8Pec :
    ([0x5A] : List Byte) ≠ [] ∧ (withEvents (pec [0x5A] ++ [rd .crc])).pending = pec [0x5A] ++ rd .crc :: [] := by decide
/-- CRC_CLR followed by no chunk, and by one of eight bytes. -/
theorem witness_CrcClrZeroes :
    (withEvents (execCmd .crcClr)).pending = execCmd .crcClr ++ ([] : List (List Byte)).flatMap (pecChunk false) ++ [] ∧
      (withEvents (execCmd .crcClr ++ pecChunk false [1, 2, 3, 4, 5, 6, 7, 8])).pending =
        execCmd .crcClr ++ ([[1, 2, 3, 4, 5, 6, 7, 8]] : List (List Byte)).flatMap (pecChunk false) ++ [] := by decide
/-- Pieces of 1 and 7 bytes; a CRC fed to itself; a zero byte fed into 0. -/
theorem witness_CrcUpdFeedsTheBytes :
    1 + 7 ≤ 8 ∧ (0x01020304050607 : DWord).toNat = (0x0102030405060708 : DWord).toNat / 2 ^ (8 * 1) ∧
      ({ State.reset with opa := 0x11B, crc := 0x1B } : State).opa.toNat % 256 =
        ({ State.reset with opa := 0x11B, crc := 0x1B } : State).crc.toNat ∧
      State.reset.opa.toNat % 256 = 0 ∧ State.reset.crc.toNat = 0 := by decide
theorem witness_SingleBitErrorsAreDetected : 8 < ([1, 2, 3, 4, 5, 6, 7, 8, 9] : List Byte).length ∧ 7 < 8 := by decide
/-- One pending write of CMD, out of reset: the hypotheses of every statement about a CMD write. -/
theorem witness_cmdWrite :
    (withEvents [.access (.write 0x00 4 0x51)]).resetAsserted = false ∧
      (withEvents [.access (.write 0x00 4 0x51)]).pending = .access (.write 0x00 4 0x51) :: [] ∧
      decode 0x51 = .ok (.twosDec 5) ∧ decode 0xC = .error .reservedOpcode := by decide
/-- Two states that differ in everything a command does not read. -/
theorem witness_ResultsDependOnlyOnOperands :
    State.reset.opa = ({ State.reset with res := 1, rese := 2, resm := 3, cmd := 4, err := 5 } : State).opa ∧
      State.reset.crc = ({ State.reset with res := 1 } : State).crc := by decide
theorem witness_CommandsReadOnlyTheirOperandBits :
    State.reset.opa.toNat % 2 ^ operandBits .vmodeDec = (0xE0 : DWord).toNat % 2 ^ operandBits .vmodeDec := by decide
theorem witness_CommandsLeaveTheRestOfTheWindow :
    exec .nop State.reset = .next State.reset ∧ 63 < 64 ∧ 63 - 63 % 4 ∉ writtenOffsets .nop := by
  exact ⟨rfl, by decide, by decide⟩
theorem witness_ReadsReturnTheRegisterMap :
    15 < 16 ∧ (withEvents [.access (.read (4 * ((15 : Nat) : Int)) 4)]).pending =
      .access (.read (4 * ((15 : Nat) : Int)) 4) :: [] := by decide
/-- A pending write of each kind, and both values of bit 8. -/
theorem witness_WritesFollowTheRegisterMap :
    (withEvents [.access (.write 0x04 4 0x100)]).pending = .access (.write 0x04 4 0x100) :: [] ∧
      bitsOf (0x100 : Word).toNat 8 1 = 1 ∧ bitsOf (0xFFFFFEFF : Word).toNat 8 1 = 0 ∧
      (withEvents [.access (.write 0x08 4 1)]).pending = .access (.write 0x08 4 1) :: [] ∧
      (withEvents [.access (.write 0x0C 4 1)]).pending = .access (.write 0x0C 4 1) :: [] ∧
      (withEvents [.access (.write (4 * ((4 : Nat) : Int)) 4 1)]).pending =
        .access (.write (4 * ((4 : Nat) : Int)) 4 1) :: [] := by decide
/-- A byte access at the last offset, a misaligned one at the first. -/
theorem witness_BadAccessesChangeNothing :
    ((63 : Int) < 64 ∧ (1 ≠ 4 ∨ (63 : Int) % 4 ≠ 0)) ∧ ((0 : Int) ≤ 1 ∧ (4 ≠ 4 ∨ (1 : Int) % 4 ≠ 0)) ∧
      (withEvents [.access (.read 63 1)]).pending = .access (.read 63 1) :: [] := by decide
/-- The addresses just below and just above the window, whatever `BASE` is. -/
theorem witness_AddressesOutsideTheWindowAreNotDecoded :
    ((Config.base : Int) - 1 < Config.base) ∧ ((Config.base : Int) + 64 ≤ Config.base + 64) := by omega
theorem witness_CmdKeepsTheLastWord :
    (withEvents [.access (.write 0x00 4 0xC), .access (.read 0x00 4)]).pending =
      .access (.write 0x00 4 0xC) :: .access (.read 0x00 4) :: [] := by decide
/-- A step that clears `STICKY`, one that changes `ERR`, one that changes `OPA`, one that changes `CRC` and one that changes
`RES`. -/
theorem witness_writers :
    step { withEvents [wr .status 0x100] with sticky := true } = .next { State.reset with responses := [.written] } ∧
      step (withEvents [wr .cmd 0xC]) =
        .next { State.reset with cmd := 0xC, err := 1, sticky := true, responses := [.written] } ∧
      step (withEvents [wr .opaLo 1]) = .next { State.reset with opa := 1, responses := [.written] } ∧
      step { withEvents [wr .cmd 0xB] with opa := 1 } =
        .next { State.reset with cmd := 0xB, opa := 1, crc := 7, res := 7, responses := [.written] } := by
  exact ⟨rfl, rfl, rfl, rfl⟩
theorem witness_WindowBytesAreLittleEndian : 60 < 64 ∧ 60 % 4 = 0 := by decide
theorem witness_EventsTakeEffectInOrder :
    step { State.reset with pending := HostEvent.assertReset :: [rd .cmd] } =
      .next { State.reset with resetAsserted := true, pending := [rd .cmd] } := by rfl
theorem witness_TheBlockIdlesWithoutTheHost : State.reset.pending = [] := by rfl
theorem witness_ResetSetsEveryField : (withEvents [.assertReset]).pending = .assertReset :: [] := by rfl
theorem witness_ResetDuringACommandAbandonsIt :
    (withEvents [.cmdWriteThenReset 0xB 3]).resetAsserted = false ∧
      (withEvents [.cmdWriteThenReset 0xB 3]).pending = .cmdWriteThenReset 0xB 3 :: [] := by decide
theorem witness_AccessesDuringResetAreRefused :
    ({ withEvents [rd .cmd] with resetAsserted := true } : State).resetAsserted = true ∧
      (withEvents [.releaseReset, rd .cmd]).pending = .releaseReset :: .access (.read 0 4) :: [] := by decide
theorem witness_SoftwareReachesTheResetValues :
    (withEvents (execCmd .crcClr ++ ldOpa 0 ++ execCmd .lin11Dec ++ clrSticky ++ execCmd .nop)).pending =
      execCmd .crcClr ++ ldOpa 0 ++ execCmd .lin11Dec ++ clrSticky ++ execCmd .nop ++ [] := by decide
/-- A state at the bounds of the register ranges that steps: CRC_CLR pending. -/
theorem witness_RegisterRangesAreKept :
    RegisterRanges { withEvents [wr .cmd 0xA] with err := 5, rese := 0xFFFFFFF0, resm := 0xFFFF } ∧
      step { withEvents [wr .cmd 0xA] with err := 5, rese := 0xFFFFFFF0, resm := 0xFFFF } =
        .next { State.reset with cmd := 0xA, rese := 0xFFFFFFF0, resm := 0xFFFF, responses := [.written] } := by
  exact ⟨by decide, rfl⟩
theorem witness_EveryRunReachesItsEnd :
    platformKeepsOff false [wr .cmd 0, .assertReset, .releaseReset, rd .status] = true := by decide
/-- In reset with a release first, out of reset with a command cut short by reset last, and with nothing pending; an access in
reset breaks the duty. -/
theorem witness_PlatformDutyIsKeptByEveryStep :
    platformKeepsOff true [.releaseReset, rd .cmd] = true ∧ platformKeepsOff false [.cmdWriteThenReset 0xB 3] = true ∧
      platformKeepsOff true [] = true ∧ platformKeepsOff true [rd .cmd] = false := by decide

end Sys2Proof.Tests
end

section
/-! Proofs. The binary64 reading, the binary64 encoding and the rounding of Machine/Numeric.lean against the independent
formulas of R13, R14 and R15. Each primitive has one lemma that says what rational it stands for; the commands that read or
write real values rest on these lemmas. -/

namespace Sys2Proof.Stated

open Sys2Proof Sys2Proof.Machine

/-! ### Reading a binary64 pattern (R13) -/

theorem f64NonFinite_iff_not_finite (b : DWord) : f64NonFinite b = true ↔ ¬ f64Finite b := by
  rw [f64NonFinite_iff, f64Finite, not_not, bitsOf]

theorem f64Val_of_not_finite {b : DWord} (h : ¬ f64Finite b) : f64Val b = none :=
  (f64Val_eq_none_iff b).2 ((f64NonFinite_iff_not_finite b).2 h)

/-- The top bit of a pattern is R13's sign field. -/
theorem msb_iff_signField (b : DWord) : b.msb = true ↔ bitsOf b.toNat 63 1 = 1 := by
  have := b.isLt
  rw [BitVec.msb_eq_decide, decide_eq_true_iff, bitsOf]
  omega

theorem f64Signed_eq_signField (b : DWord) (n : Nat) :
    (f64Signed b n : ℚ) = (-1) ^ bitsOf b.toNat 63 1 * n := by
  unfold f64Signed
  split_ifs with h
  · rw [(msb_iff_signField b).1 h]
    simp
  · have : bitsOf b.toNat 63 1 = 0 := by
      have := mt (msb_iff_signField b).2 h
      rw [bitsOf] at this ⊢
      omega
    simp [this]

/-- A finite pattern has the value of R13's formula for its exponent field. -/
theorem f64Val_of_finite {b : DWord} (h : f64Finite b) : ∃ q : Scaled, f64Val b = some q ∧ q.value = f64Rat b := by
  have finite : f64NonFinite b = false := Bool.eq_false_iff.2 fun hn => (f64NonFinite_iff_not_finite b).1 hn h
  have fraction : (b.extractLsb 51 0).toNat = bitsOf b.toNat 0 52 := by simp [bitsOf]
  have exponent : (b.extractLsb 62 52).toNat = bitsOf b.toNat 52 11 := f64_exponentField b
  unfold f64Val f64Rat
  simp only [finite, fraction, exponent, Bool.false_eq_true, if_false]
  split_ifs with he
  · exact ⟨_, rfl, by rw [Scaled.value, f64Signed_eq_signField]⟩
  · exact ⟨_, rfl, by rw [Scaled.value, f64Signed_eq_signField]; push_cast; rfl⟩

/-! ### Encoding in binary64 (R14) -/

/-- The three fields of a pattern written as sign, exponent and fraction. -/
theorem f64Pattern_fields (s : BitVec 1) (e : BitVec 11) (f : BitVec 52) :
    bitsOf (s ++ e ++ f).toNat 63 1 = s.toNat ∧ bitsOf (s ++ e ++ f).toNat 52 11 = e.toNat ∧
      bitsOf (s ++ e ++ f).toNat 0 52 = f.toNat := by
  have hs := s.isLt
  have he := e.isLt
  have hf := f.isLt
  simp only [toNat_append_eq, bitsOf]
  omega

/-- A nonzero value that binary64 holds exactly as a normal number: at most 53 bits, and R14's `k` in the normal range. -/
def NormalF64 (q : Scaled) : Prop :=
  q.num ≠ 0 ∧ q.num.natAbs < 2 ^ 53 ∧ -1022 ≤ (q.num.natAbs.log2 : Int) + q.exp ∧
    (q.num.natAbs.log2 : Int) + q.exp ≤ 1023

/-- Shifted so that its top bit is bit 52, a magnitude of at most 53 bits lies between `2^52` and `2^53` (R14's `M`). -/
theorem significand_bounds {n : Nat} (hn : n ≠ 0) (hlt : n < 2 ^ 53) :
    n.log2 ≤ 52 ∧ 2 ^ 52 ≤ n * 2 ^ (52 - n.log2) ∧ n * 2 ^ (52 - n.log2) < 2 ^ 53 := by
  have hlog : n.log2 ≤ 52 := Nat.le_of_lt_succ ((Nat.log2_lt hn).2 hlt)
  refine ⟨hlog, ?_, ?_⟩
  · calc 2 ^ 52 = 2 ^ n.log2 * 2 ^ (52 - n.log2) := by rw [← pow_add, Nat.add_sub_cancel' hlog]
      _ ≤ n * 2 ^ (52 - n.log2) := Nat.mul_le_mul_right _ (Nat.log2_self_le hn)
  · calc n * 2 ^ (52 - n.log2) < 2 ^ (n.log2 + 1) * 2 ^ (52 - n.log2) :=
          Nat.mul_lt_mul_of_pos_right Nat.lt_log2_self (by positivity)
      _ = 2 ^ 53 := by rw [← pow_add]; congr 1; omega

/-- What the encoding of a normal value holds in its three fields. -/
theorem f64Enc_fields {q : Scaled} (h : NormalF64 q) :
    bitsOf (f64Enc q).toNat 63 1 = (if q.num < 0 then 1 else 0) ∧
      (bitsOf (f64Enc q).toNat 52 11 : Int) = q.num.natAbs.log2 + q.exp + 1023 ∧
      bitsOf (f64Enc q).toNat 0 52 + 2 ^ 52 = q.num.natAbs * 2 ^ (52 - q.num.natAbs.log2) := by
  obtain ⟨hnum, hlt, hlo, hhi⟩ := h
  obtain ⟨-, mlo, mhi⟩ := significand_bounds (Int.natAbs_ne_zero.2 hnum) hlt
  unfold f64Enc
  rw [if_neg hnum]
  obtain ⟨hs, he, hf⟩ := f64Pattern_fields (if q.num < 0 then 1 else 0)
    (wrap 11 ((q.num.natAbs.log2 : Int) + q.exp + 1023))
    (BitVec.ofNat 52 (q.num.natAbs * 2 ^ (52 - q.num.natAbs.log2) - 2 ^ 52))
  refine ⟨hs.trans ?_, (congrArg Nat.cast he).trans ?_, ?_⟩
  · split_ifs <;> rfl
  · rw [wrap_toNat, Int.emod_eq_of_lt] <;> omega
  · rw [hf, BitVec.toNat_ofNat, Nat.mod_eq_of_lt] <;> omega

/-- The exponent field of a normal value is neither 0 nor 0x7FF. -/
theorem f64Enc_exponentField_bounds {q : Scaled} (h : NormalF64 q) :
    1 ≤ bitsOf (f64Enc q).toNat 52 11 ∧ bitsOf (f64Enc q).toNat 52 11 < 0x7FF := by
  obtain ⟨-, hexp, -⟩ := f64Enc_fields h
  obtain ⟨-, -, hlo, hhi⟩ := h
  omega

/-- A normal value's encoding stands for exactly that value: `M * 2^(k - 52)` is `|num| * 2^exp` (R14). -/
theorem f64Rat_f64Enc {q : Scaled} (h : NormalF64 q) : f64Rat (f64Enc q) = q.value := by
  obtain ⟨hsign, hexp, hfrac⟩ := f64Enc_fields h
  obtain ⟨epos, -⟩ := f64Enc_exponentField_bounds h
  obtain ⟨hnum, hlt, -, -⟩ := h
  obtain ⟨hlog, -, -⟩ := significand_bounds (Int.natAbs_ne_zero.2 hnum) hlt
  have hmag : (2 : ℚ) ^ 52 + (bitsOf (f64Enc q).toNat 0 52 : ℚ) =
      (q.num.natAbs : ℚ) * 2 ^ (52 - q.num.natAbs.log2 : ℤ) := by
    have hcast : (52 - q.num.natAbs.log2 : ℤ) = ((52 - q.num.natAbs.log2 : ℕ) : ℤ) := by omega
    rw [hcast, zpow_natCast, add_comm]
    exact_mod_cast hfrac
  have hnumSign : (-1 : ℚ) ^ bitsOf (f64Enc q).toNat 63 1 * q.num.natAbs = q.num := by
    rw [hsign, Nat.cast_natAbs]
    split_ifs with hneg
    · simp [abs_of_neg hneg]
    · simp [abs_of_nonneg (not_lt.1 hneg)]
  unfold f64Rat
  rw [if_neg (by omega), hmag, hexp, ← mul_assoc, hnumSign, mul_assoc, ← zpow_add₀ two_ne_zero, Scaled.value]
  congr 2
  ring

theorem f64Enc_encodes_normal {q : Scaled} (h : NormalF64 q) : EncodesF64 (f64Enc q) q.value := by
  refine ⟨(f64Enc_exponentField_bounds h).2.ne, f64Rat_f64Enc h, fun hzero => absurd hzero ?_⟩
  exact mul_ne_zero (Int.cast_ne_zero.2 h.1) (zpow_ne_zero _ two_ne_zero)

/-- Zero is encoded as +0.0 whatever its exponent (R14). -/
theorem f64Enc_encodes_zero (e : Int) : EncodesF64 (f64Enc ⟨0, e⟩) 0 := by
  have hzero : f64Enc ⟨0, e⟩ = 0 := rfl
  rw [hzero]
  exact ⟨by unfold f64Finite; decide, by simp [f64Rat, bitsOf], fun _ => rfl⟩

/-- Every nonzero value of the decoders is a normal one (the ranges of R14). -/
theorem decoderValue_normal {m e : Int} (hm : m ≠ 0) (mlo : -1024 ≤ m) (mhi : m ≤ 65535) (elo : -16 ≤ e)
    (ehi : e ≤ 15) : NormalF64 ⟨m, e⟩ := by
  have hlog : m.natAbs.log2 < 16 := (Nat.log2_lt (Int.natAbs_ne_zero.2 hm)).2 (by omega)
  refine ⟨hm, ?_, ?_, ?_⟩ <;> dsimp only <;> omega

/-! ### Rounding (R15) -/

theorem isRne_intCast (n : Int) : IsRne n n := by simp [IsRne]

/-- How far an integer is from a fraction, in integers. -/
theorem abs_div_sub_intCast (a n : Int) {d : Nat} (hd : 0 < d) :
    |(a : ℚ) / d - n| = (2 * |a - n * d| : Int) / (2 * d) := by
  have hpos : (0 : ℚ) < d := by exact_mod_cast hd
  rw [div_sub' hpos.ne', abs_div, abs_of_pos hpos]
  push_cast
  rw [mul_div_mul_left _ _ two_ne_zero, mul_comm (d : ℚ)]

theorem isRne_div_of_lt {a n : Int} {d : Nat} (hd : 0 < d) (h : 2 * |a - n * d| < d) : IsRne ((a : ℚ) / d) n := by
  have hpos : (0 : ℚ) < d := by exact_mod_cast hd
  have hlt : |(a : ℚ) / d - n| < 1 / 2 := by
    rw [abs_div_sub_intCast a n hd, div_lt_div_iff₀ (by positivity) two_pos]
    have : ((2 * |a - n * d| : Int) : ℚ) < d := by exact_mod_cast h
    linarith
  exact ⟨hlt.le, fun tie => absurd tie hlt.ne⟩

theorem isRne_div_of_tie {a n : Int} {d : Nat} (hd : 0 < d) (h : 2 * |a - n * d| = d) (even : n % 2 = 0) :
    IsRne ((a : ℚ) / d) n := by
  have hpos : (0 : ℚ) < d := by exact_mod_cast hd
  have htie : |(a : ℚ) / d - n| = 1 / 2 := by
    rw [abs_div_sub_intCast a n hd, h]
    field_simp
    norm_num
  exact ⟨htie.le, fun _ => even⟩

/-- The four branches of `roundHalfEven`: the quotient below, and the one above, each strictly nearer or even on a tie. -/
theorem isRne_roundHalfEven (a : Int) {d : Nat} (hd : 0 < d) : IsRne ((a : ℚ) / d) (roundHalfEven a d) := by
  have hlo := Int.emod_nonneg a (b := (d : Int)) (by omega)
  have hhi := Int.emod_lt_of_pos a (b := (d : Int)) (by omega)
  have below : |a - a / (d : Int) * d| = a % (d : Int) := by
    rw [← abs_of_nonneg hlo, Int.emod_def, mul_comm]
  have above : |a - (a / (d : Int) + 1) * d| = d - a % (d : Int) := by
    rw [← abs_of_pos (sub_pos.2 hhi), abs_sub_comm, Int.emod_def]
    congr 1
    ring
  unfold roundHalfEven
  simp only
  split_ifs with hlt hgt heven
  · exact isRne_div_of_lt hd (by omega)
  · exact isRne_div_of_lt hd (by omega)
  · exact isRne_div_of_tie hd (by omega) heven
  · exact isRne_div_of_tie hd (by omega) (by omega)

/-- `rne` rounds the rational its argument stands for (R15). -/
theorem isRne_rne (q : Scaled) : IsRne q.value (rne q) := by
  unfold rne Scaled.value
  split_ifs with hexp
  · obtain ⟨k, hk⟩ := Int.eq_ofNat_of_zero_le hexp
    have hint : (q.num : ℚ) * 2 ^ q.exp = (q.num * ((2 ^ q.exp.toNat : Nat) : Int) : Int) := by
      rw [hk]; push_cast; simp
    rw [hint]
    exact isRne_intCast _
  · have hdiv : (q.num : ℚ) * 2 ^ q.exp = q.num / ((2 ^ (-q.exp).toNat : Nat) : ℚ) := by
      push_cast
      rw [← zpow_natCast, Int.toNat_of_nonneg (by omega), zpow_neg, div_inv_eq_mul]
    rw [hdiv]
    exact isRne_roundHalfEven q.num (by positivity)

end Sys2Proof.Stated

open Sys2Proof Sys2Proof.Machine Sys2Proof.Stated

/-- Settles O20: the model's sign, exponent and fraction are R13's fields. -/
theorem binary64PatternsReadExactly : Obligations.Binary64PatternsReadExactly :=
  fun _ => ⟨f64Val_of_not_finite, f64Val_of_finite⟩

/-- Settles O21: zero is a case of its own; every other decoder value is normal, so its encoding is exact. -/
theorem binary64EncodeIsExact : Obligations.Binary64EncodeIsExact := by
  intro m e mlo mhi elo ehi
  by_cases hm : m = 0
  · subst hm
    exact ⟨by simpa using f64Enc_encodes_zero e, fun h => absurd rfl h⟩
  · have normal := decoderValue_normal hm mlo mhi elo ehi
    obtain ⟨hsign, -, -⟩ := f64Enc_fields normal
    refine ⟨f64Enc_encodes_normal normal, fun _ => ⟨(f64Enc_exponentField_bounds normal).1, ?_⟩⟩
    rw [hsign]
    simp

/-- Settles O22: the quotient's remainder says which neighbour is nearest (`isRne_roundHalfEven`). -/
theorem roundingIsToNearestEven : Obligations.RoundingIsToNearestEven := isRne_rne

/-- Settles O48: with nothing pending the step keeps the state (`step_idle`). -/
theorem theBlockIdlesWithoutTheHost : Obligations.TheBlockIdlesWithoutTheHost := fun _ => step_idle
end

section
/-! Proofs. The state (spec/10_state.md): which registers a command or a step may change, and in which ranges it leaves them.
What a command may commit is said once (`FitsRule`, `exec_fitsRule`), and what a register write can do once
(`Reg.write_cases`); the frames and the invariant are read off these two. -/

namespace Sys2Proof.Machine

open Sys2Proof.Stated

/-! ### Words decode to well-formed commands (R62 to R64, R71) -/

theorem widthField_encodable (w : Word) : widthEncodable (widthField w) = true :=
  decide_eq_true (Nat.le_of_lt_succ (w.extractLsb 10 4).isLt)

theorem lengthField_encodable (w : Word) : lengthEncodable (lengthField w) = true := by
  have := (w.extractLsb 14 12).isLt
  simp [lengthEncodable, lengthField]
  omega

theorem exponentField_encodable (w : Word) : exponentEncodable (exponentField w) = true := by
  have lower : -16 ≤ exponentField w := sext_lower (w.extractLsb 24 20)
  have upper : exponentField w < 16 := sext_upper (w.extractLsb 24 20)
  simp [exponentEncodable]
  omega

theorem decode_wellFormed {w : Word} {i : Instr} (h : decode w = .ok i) : i.wellFormed = true := by
  unfold decode at h
  split at h
  · cases h
  next op _ =>
    split_ifs at h
    cases h
    cases op with
    | nop | lin11Dec | vmodeDec | crcClr => rfl
    | twosDec | twosEnc => exact widthField_encodable w
    | b2u | u2b | crcUpd => exact lengthField_encodable w
    | lin11Enc | ulin16Dec | ulin16Enc => exact exponentField_encodable w

/-! ### What a command may commit -/

/-- The window offsets of the registers the results go to (R41). -/
def Results.offsets (w : Results) : List Nat :=
  (if w.res.isSome then [0x10, 0x14] else []) ++ (if w.rese.isSome then [0x18] else []) ++
    (if w.resm.isSome then [0x1C] else []) ++ (if w.crc.isSome then [0x20] else [])

/-- The values `RESE` takes (R25). -/
def ReseInRange (x : Word) : Prop := -16 ≤ x.toInt ∧ x.toInt ≤ 15

/-- The values `RESM` takes (R26). -/
def ResmInRange (x : Word) : Prop := -1024 ≤ x.toInt ∧ x.toInt ≤ 65535

/-- The results are ones the command's rule can give: they go to exactly the registers of its "Writes" line, and the exponent
and the mantissa or raw value are in their ranges. -/
structure FitsRule (i : Instr) (w : Results) : Prop where
  writes : writtenOffsets i = 0x04 :: w.offsets
  rese : i.wellFormed = true → ∀ x ∈ w.rese, ReseInRange x
  resm : ∀ x ∈ w.resm, ResmInRange x

theorem reseInRange_wrap {e : Int} (lower : -16 ≤ e) (upper : e ≤ 15) : ReseInRange (wrap 32 e) := by
  rw [ReseInRange, wrap_toInt (by decide) (by omega) (by omega)]
  exact ⟨lower, upper⟩

theorem reseInRange_of_encodable {e : Int} (h : exponentEncodable e = true) : ReseInRange (wrap 32 e) := by
  simp only [exponentEncodable, Bool.and_eq_true, decide_eq_true_eq] at h
  exact reseInRange_wrap h.1 h.2

theorem reseInRange_sext (p : BitVec 5) : ReseInRange (wrap 32 (sext p)) :=
  reseInRange_wrap (sext_lower p) (Int.le_of_lt_add_one (sext_upper p))

theorem resmInRange_wrap {m : Int} (lower : -1024 ≤ m) (upper : m ≤ 65535) : ResmInRange (wrap 32 m) := by
  rw [ResmInRange, wrap_toInt (by decide) (by omega) (by omega)]
  exact ⟨lower, upper⟩

theorem resmInRange_sext (p : BitVec 11) : ResmInRange (wrap 32 (sext p)) :=
  resmInRange_wrap (sext_lower p) ((Int.le_of_lt (sext_upper p)).trans (by decide))

theorem resmInRange_zext (p : BitVec 16) : ResmInRange (zext 32 p) := by
  have value : (zext 32 p).toInt = p.toNat := by
    simp [zext, BitVec.toInt_eq_toNat_cond]
    omega
  have := p.isLt
  rw [ResmInRange, value]
  omega

/-- Results without exponent and mantissa fit when they go to the registers of the "Writes" line. -/
theorem FitsRule.of_writes {i : Instr} {res : Option DWord} {crc : Option Byte}
    (h : writtenOffsets i = 0x04 :: Results.offsets { res, crc }) : FitsRule i { res, crc } :=
  ⟨h, nofun, nofun⟩

/-- What a command decides to commit, if it does not fail, fits its rule. -/
theorem exec_fitsRule (i : Instr) (s : State) : ∃ r, exec i s = finish r s ∧ ∀ w, r = .ok w → FitsRule i w := by
  cases i with
  | nop | b2u | crcClr | crcUpd => exact ⟨.ok _, rfl, by rintro _ ⟨⟩; exact .of_writes rfl⟩
  | twosDec | twosEnc | u2b =>
    refine ⟨_, rfl, fun w hw => ?_⟩
    split_ifs at hw
    cases hw; exact .of_writes rfl
  | lin11Dec =>
    refine ⟨.ok _, rfl, ?_⟩
    rintro _ ⟨⟩
    exact ⟨rfl, by rintro - _ ⟨⟩; exact reseInRange_sext _, by rintro _ ⟨⟩; exact resmInRange_sext _⟩
  | lin11Enc e =>
    refine ⟨_, rfl, fun w hw => ?_⟩
    split at hw <;> cases hw
    exact ⟨rfl, by rintro he _ ⟨⟩; exact reseInRange_of_encodable he, by rintro _ ⟨⟩; exact resmInRange_sext _⟩
  | ulin16Dec e =>
    refine ⟨.ok _, rfl, ?_⟩
    rintro _ ⟨⟩
    exact ⟨rfl, by rintro he _ ⟨⟩; exact reseInRange_of_encodable he, by rintro _ ⟨⟩; exact resmInRange_zext _⟩
  | ulin16Enc e =>
    refine ⟨_, rfl, fun w hw => ?_⟩
    split at hw
    · cases hw
    · dsimp only at hw
      split_ifs at hw with negative above
      cases hw
      exact ⟨rfl, by rintro he _ ⟨⟩; exact reseInRange_of_encodable he,
        by rintro _ ⟨⟩; exact resmInRange_wrap (by omega) (by omega)⟩
  | vmodeDec =>
    refine ⟨.ok _, rfl, ?_⟩
    rintro _ ⟨⟩
    exact ⟨rfl, by rintro - _ ⟨⟩; exact reseInRange_sext _, nofun⟩

/-- What a command can do to a state: commit results that fit its rule, or record an error. -/
theorem exec_fitting_cases {i : Instr} {s t : State} (h : exec i s = .next t) :
    (∃ w, FitsRule i w ∧ t = commit w s) ∨ ∃ e, t = recordError e s := by
  obtain ⟨r, hr, fits⟩ := exec_fitsRule i s
  obtain ⟨t', ht, cases⟩ := finish_next r s
  obtain rfl : t' = t := by simpa [hr, ht] using h
  exact cases.imp (fun ⟨w, hw, eq⟩ => ⟨w, fits w hw, eq⟩) fun ⟨e, _, eq⟩ => ⟨e, eq⟩

/-- What a command decides depends on `OPA` alone, and on `CRC` only for CRC_UPD without `S` (R31). -/
theorem exec_same_decision {i : Instr} {s u : State} (hopa : s.opa = u.opa)
    (hcrc : ∀ len, i = .crcUpd len false → s.crc = u.crc) : ∃ r, exec i s = finish r s ∧ exec i u = finish r u := by
  obtain ⟨⟩ := u
  cases hopa
  cases i with
  | crcUpd len seed =>
    cases seed with
    | true => exact ⟨.ok _, rfl, rfl⟩
    | false => cases hcrc len rfl; exact ⟨.ok _, rfl, rfl⟩
  | nop | b2u | lin11Dec | ulin16Dec | vmodeDec | crcClr => exact ⟨.ok _, rfl, rfl⟩
  | twosDec | twosEnc | u2b | lin11Enc | ulin16Enc => exact ⟨_, rfl, rfl⟩

/-- A register that a commit gives a value gets the same one whatever it held; any other keeps what it held. -/
theorem getD_eq_or_kept {α : Type} (o : Option α) (x y : α) : o.getD x = o.getD y ∨ o.getD x = x ∧ o.getD y = y := by
  cases o with
  | none => exact .inr ⟨rfl, rfl⟩
  | some z => exact .inl rfl

/-! ### What a commit leaves unchanged -/

theorem Results.mem_offsets {w : Results} {n : Nat} :
    n ∈ w.offsets ↔ (w.res.isSome ∧ (n = 0x10 ∨ n = 0x14)) ∨ (w.rese.isSome ∧ n = 0x18) ∨
      (w.resm.isSome ∧ n = 0x1C) ∨ (w.crc.isSome ∧ n = 0x20) := by
  simp [Results.offsets]

/-- A register outside STATUS and the results' offsets reads as before a commit. -/
theorem read_commit_of_notMem {r : Reg} {w : Results} (s : State) (h : r.offset ∉ 0x04 :: w.offsets) :
    r.read (commit w s) = r.read s := by
  simp only [List.mem_cons, Results.mem_offsets] at h
  cases r with
  | cmd | opaLo | opaHi => rfl
  | status => exact absurd (.inl rfl) h
  | resLo | resHi =>
    have kept : w.res = none := by simpa [Reg.offset] using h
    simp [Reg.read, kept]
  | rese =>
    have kept : w.rese = none := by simpa [Reg.offset] using h
    simp [Reg.read, kept]
  | resm =>
    have kept : w.resm = none := by simpa [Reg.offset] using h
    simp [Reg.read, kept]
  | crc =>
    have kept : w.crc = none := by simpa [Reg.offset] using h
    simp [Reg.read, kept]

/-- A recorded error changes what STATUS reads and nothing else (R173). -/
theorem read_recordError {r : Reg} (e : CmdError) (s : State) (h : r ≠ .status) :
    r.read (recordError e s) = r.read s := by
  cases r with
  | status => exact absurd rfl h
  | _ => rfl

/-- A command may change STATUS whatever its rule (R173). -/
theorem status_written (i : Instr) : Reg.status.offset ∈ writtenOffsets i := by
  cases i <;> exact List.mem_cons_self

/-- A command leaves every register outside its "Writes" line and STATUS as it reads (R31). -/
theorem read_exec_of_notWritten {i : Instr} {s t : State} {r : Reg} (h : exec i s = .next t)
    (hr : r.offset ∉ writtenOffsets i) : r.read t = r.read s := by
  obtain ⟨w, fits, rfl⟩ | ⟨e, rfl⟩ := exec_fitting_cases h
  · exact read_commit_of_notMem s (fits.writes ▸ hr)
  · exact read_recordError e s fun status => hr (status ▸ status_written i)

/-- Two states agree at a window offset when they agree on the register mapped there, if one is (R41). -/
theorem readOffset_congr {n : Nat} {s t : State} (h : ∀ r : Reg, r.offset = n → r.read t = r.read s) :
    readOffset n t = readOffset n s := by
  unfold readOffset
  split
  next r hr => exact h r (offset_ofOffset hr)
  next => rfl

/-! ### What a register write and a step can do -/

/-- The four registers that hold results (R24 to R27). -/
def resultRegs (s : State) : DWord × Word × Word × Byte := (s.res, s.rese, s.resm, s.crc)

/-- Results for no register leave the result registers as they are. -/
theorem resultRegs_commit_of_nil {w : Results} (s : State) (h : w.offsets = []) :
    resultRegs (commit w s) = resultRegs s := by
  obtain ⟨hres, hrese, hresm, hcrc⟩ : w.res = none ∧ w.rese = none ∧ w.resm = none ∧ w.crc = none := by
    simpa [Results.offsets, and_assoc] using h
  simp [resultRegs, hres, hrese, hresm, hcrc]

/-- Everything a register write can do: a CMD write commits results that fit the decoded command's rule or records an error,
a write of STATUS or of a half of `OPA` has its own effect, and every other write has none. -/
theorem Reg.write_cases {r : Reg} {v : Word} {s t : State} (h : r.write v s = .next t) :
    (r = .cmd ∧ ∃ i w, decode v = .ok i ∧ FitsRule i w ∧ t = commit w { s with cmd := v }) ∨
    (r = .cmd ∧ ∃ e, t = recordError e { s with cmd := v }) ∨
    (r = .status ∧ t = writeStatus v s) ∨ (r = .opaLo ∧ t = writeOpaLo v s) ∨ (r = .opaHi ∧ t = writeOpaHi v s) ∨
    t = s := by
  cases r with
  | cmd =>
    obtain ⟨t', ht, cases⟩ := writeCmd_next v s
    obtain rfl : t' = t := by simpa [Reg.write, ht] using h
    obtain ⟨i, -, hd, hx, -⟩ | ⟨e, he⟩ := cases
    · obtain ⟨w, fits, hw⟩ | ⟨e, he⟩ := exec_fitting_cases hx
      · exact .inl ⟨rfl, i, w, hd, fits, hw⟩
      · exact .inr (.inl ⟨rfl, e, he⟩)
    · exact .inr (.inl ⟨rfl, e, he⟩)
  | status => cases h; exact .inr (.inr (.inl ⟨rfl, rfl⟩))
  | opaLo => cases h; exact .inr (.inr (.inr (.inl ⟨rfl, rfl⟩)))
  | opaHi => cases h; exact .inr (.inr (.inr (.inr (.inl ⟨rfl, rfl⟩))))
  | resLo | resHi | rese | resm | crc => cases h; exact .inr (.inr (.inr (.inr (.inr rfl))))

/-- `OPA` changes only by a write of one of its halves (R23). -/
theorem Reg.write_changes_opa {r : Reg} {v : Word} {s t : State} (h : r.write v s = .next t) (hne : t.opa ≠ s.opa) :
    r = .opaLo ∨ r = .opaHi := by
  obtain ⟨-, i, w, -, -, rfl⟩ | ⟨-, e, rfl⟩ | ⟨-, rfl⟩ | ⟨hlo, -⟩ | ⟨hhi, -⟩ | rfl := Reg.write_cases h
  · exact absurd rfl hne
  · exact absurd rfl hne
  · exact absurd (writeStatus_opa s v) hne
  · exact .inl hlo
  · exact .inr hhi
  · exact absurd rfl hne

/-- The result registers change only by a CMD write whose command commits results (R31). -/
theorem Reg.write_changes_results {r : Reg} {v : Word} {s t : State} (h : r.write v s = .next t)
    (hne : resultRegs t ≠ resultRegs s) :
    r = .cmd ∧ ∃ i w, decode v = .ok i ∧ FitsRule i w ∧ t = commit w { s with cmd := v } := by
  obtain hcommit | ⟨-, e, rfl⟩ | ⟨-, rfl⟩ | ⟨-, rfl⟩ | ⟨-, rfl⟩ | rfl := Reg.write_cases h
  · exact hcommit
  · exact absurd rfl hne
  · exact absurd (by simp [resultRegs]) hne
  · exact absurd rfl hne
  · exact absurd rfl hne
  · exact absurd rfl hne

/-- What a step changes of the block's own fields, a register write or a reset changes. `f` is any such field: it does not see
the reset level, the events, the answers and the counter. -/
theorem step_changes {α : Type} (f : State → α) {s t : State}
    (hf : ∀ (s : State) b p q k, f { s with resetAsserted := b, pending := p, responses := q, openCount := k } = f s)
    (h : step s = .next t) (hne : f t ≠ f s) :
    ∃ ev rest, s.pending = ev :: rest ∧
      ((∃ (r : Reg) (v : Word), ev = wr r v ∧ r.write v (respond .written { s with pending := rest }) = .next t) ∨
        isReset ev) := by
  obtain ⟨-, rfl⟩ | ⟨ev, rest, hp, cases⟩ := step_cases h
  · exact absurd rfl hne
  refine ⟨ev, rest, hp, ?_⟩
  obtain ⟨a, r, -, -, rfl⟩ | ⟨r, v, hev, -, hw⟩ | ⟨hev, -⟩ | ⟨-, rfl⟩ | ⟨v, delay, r, k, hev, -, -⟩ := cases
  · exact absurd (hf s ..) hne
  · exact .inl ⟨r, v, hev, hw⟩
  · exact .inr (.inl hev)
  · exact absurd (hf s ..) hne
  · exact .inr (.inr ⟨v, delay, hev⟩)

/-- A step that changes a result register commits results of the command that the written word decodes to, or is a reset. -/
theorem step_changes_results {s t : State} (h : step s = .next t) (hne : resultRegs t ≠ resultRegs s) :
    ∃ ev rest, s.pending = ev :: rest ∧
      ((∃ w i d, ev = wr .cmd w ∧ decode w = .ok i ∧ FitsRule i d ∧ t = commit d (afterCmdWrite w rest s)) ∨
        isReset ev) := by
  obtain ⟨ev, rest, hp, ⟨r, v, rfl, hw⟩ | hreset⟩ := step_changes resultRegs (fun _ _ _ _ _ => rfl) h hne
  · obtain ⟨rfl, i, d, hd, fits, ht⟩ := Reg.write_changes_results hw hne
    exact ⟨_, rest, hp, .inl ⟨v, i, d, rfl, hd, fits, ht⟩⟩
  · exact ⟨ev, rest, hp, .inr hreset⟩

/-- The commands with `CRC` on their "Writes" line (R27). -/
theorem crc_command_of_written {i : Instr} (h : 0x20 ∈ writtenOffsets i) :
    i = .crcClr ∨ ∃ len seed, i = .crcUpd len seed := by
  cases i with
  | crcClr => exact .inl rfl
  | crcUpd len seed => exact .inr ⟨len, seed, rfl⟩
  | _ => simp [writtenOffsets] at h

/-! ### The register ranges (R22, R25, R26) -/

theorem registerRanges_recordError {s : State} (e : CmdError) (hs : RegisterRanges s) :
    RegisterRanges (recordError e s) := by
  obtain ⟨-, hrese, hresm⟩ := hs
  exact ⟨code_le_five e, hrese, hresm⟩

theorem registerRanges_commit {i : Instr} {w : Results} {s : State} (hi : i.wellFormed = true) (fits : FitsRule i w)
    (hs : RegisterRanges s) : RegisterRanges (commit w s) := by
  obtain ⟨-, hrese, hresm⟩ := hs
  refine ⟨Nat.zero_le 5, ?_, ?_⟩
  · rw [commit_rese]
    cases h : w.rese with
    | none => exact hrese
    | some x => exact fits.rese hi x h
  · rw [commit_resm]
    cases h : w.resm with
    | none => exact hresm
    | some x => exact fits.resm x h

/-- Every register write keeps the ranges: a decoded command is well-formed, so what it commits is in them. -/
theorem Reg.write_keeps_ranges {r : Reg} {v : Word} {s t : State} (hs : RegisterRanges s)
    (h : r.write v s = .next t) : RegisterRanges t := by
  obtain ⟨-, i, w, hd, fits, rfl⟩ | ⟨-, e, rfl⟩ | ⟨-, rfl⟩ | ⟨-, rfl⟩ | ⟨-, rfl⟩ | rfl := Reg.write_cases h
  · exact registerRanges_commit (decode_wellFormed hd) fits hs
  · exact registerRanges_recordError e hs
  · simpa [RegisterRanges] using hs
  · exact hs
  · exact hs
  · exact hs

theorem registerRanges_reset : RegisterRanges State.reset := by decide

theorem registerRanges_assertReset (s : State) : RegisterRanges (assertReset s) := registerRanges_reset

/-! ### Reset (R33) -/

theorem fieldsReset_reset : FieldsReset State.reset := ⟨rfl, rfl, rfl, rfl, rfl, rfl, rfl, rfl⟩

theorem fieldsReset_assertReset (s : State) : FieldsReset (assertReset s) := fieldsReset_reset

end Sys2Proof.Machine

open Sys2Proof Sys2Proof.Machine Sys2Proof.Stated

/-- Settles O53: the reset values, 0 each, are in the ranges. -/
theorem registerRangesHoldAtReset : Obligations.RegisterRangesHoldAtReset := registerRanges_reset

/-- Settles O54: of the events of a step only a register write and a reset touch `ERR`, `RESE` and `RESM`
(`Reg.write_keeps_ranges`). -/
theorem registerRangesAreKept : Obligations.RegisterRangesAreKept := by
  intro s t hs h
  obtain ⟨-, rfl⟩ | ⟨ev, rest, -, cases⟩ := step_cases h
  · exact hs
  obtain ⟨a, r, -, -, rfl⟩ | ⟨r, v, -, -, hw⟩ | ⟨-, rfl⟩ | ⟨-, rfl⟩ | ⟨v, delay, r, k, -, -, rfl⟩ := cases
  · exact hs
  · exact Reg.write_keeps_ranges (s := respond .written { s with pending := rest }) hs hw
  · exact registerRanges_assertReset _
  · exact hs
  · exact registerRanges_assertReset _

/-- Settles O33: both states end with the same decision (`exec_same_decision`); a result register takes its value from it, or
keeps its own in both. -/
theorem resultsDependOnlyOnOperands : Obligations.ResultsDependOnlyOnOperands := by
  intro i s u hopa hcrc
  obtain ⟨r, hs, hu⟩ := exec_same_decision hopa hcrc
  cases r with
  | ok w => exact ⟨_, _, hs, hu, rfl, getD_eq_or_kept .., getD_eq_or_kept .., getD_eq_or_kept .., getD_eq_or_kept ..⟩
  | error e => exact ⟨_, _, hs, hu, rfl, .inr ⟨rfl, rfl⟩, .inr ⟨rfl, rfl⟩, .inr ⟨rfl, rfl⟩, .inr ⟨rfl, rfl⟩⟩

/-- Settles O35: a byte of the window is a byte of the register mapped at its aligned offset, if one is, and the command leaves
that register (`read_exec_of_notWritten`). -/
theorem commandsLeaveTheRestOfTheWindow : Obligations.CommandsLeaveTheRestOfTheWindow := by
  intro i s t a h _ notWritten
  have same : readOffset (a - a % 4) t = readOffset (a - a % 4) s :=
    readOffset_congr fun r hr => read_exec_of_notWritten h (hr ▸ notWritten)
  rw [windowByte, windowByte, same]

/-- Settles O41: the write stores the word before the command runs, and no command and no error touches `CMD`. -/
theorem cmdKeepsTheLastWord : Obligations.CmdKeepsTheLastWord := by
  intro w rest s hr hp
  have hstep := step_wr (r := .cmd) hr hp
  obtain ⟨t, ht⟩ := Reg.write_next .cmd w _
  obtain ⟨htr, htp, -, -⟩ := Reg.write_frame ht
  have hcmd : t.cmd = w := by
    obtain ⟨t', ht', ⟨i, d, -, -, rfl⟩ | ⟨e, rfl⟩⟩ := writeCmd_next w _
    · cases ht'.symm.trans ht; rfl
    · cases ht'.symm.trans ht; rfl
  refine ⟨t, _, hstep.trans ht, hcmd, step_read (htr.trans hr) rfl rfl htp, ?_⟩
  rw [← hcmd]
  rfl

/-- Settles O43: of the register writes only those of its halves touch `OPA` (`Reg.write_changes_opa`). -/
theorem opaIsWrittenOnlyByTheHost : Obligations.OpaIsWrittenOnlyByTheHost := by
  intro s t h hne
  obtain ⟨ev, rest, hp, ⟨r, v, rfl, hw⟩ | hreset⟩ := step_changes State.opa (fun _ _ _ _ _ => rfl) h hne
  · obtain rfl | rfl := Reg.write_changes_opa hw hne
    · exact ⟨_, rest, hp, .inl ⟨v, .inl rfl⟩⟩
    · exact ⟨_, rest, hp, .inl ⟨v, .inr rfl⟩⟩
  · exact ⟨ev, rest, hp, .inr hreset⟩

/-- Settles O44: a command that commits a `CRC` has it on its "Writes" line. -/
theorem crcIsWrittenOnlyByCrcCommands : Obligations.CrcIsWrittenOnlyByCrcCommands := by
  intro s t h hne
  have changed : resultRegs t ≠ resultRegs s := fun eq => hne (congrArg (·.2.2.2) eq)
  obtain ⟨ev, rest, hp, ⟨w, i, d, rfl, hd, fits, rfl⟩ | hreset⟩ := step_changes_results h changed
  · have written : 0x20 ∈ writtenOffsets i := by
      by_contra notWritten
      have kept : d.crc = none := by simpa [fits.writes, Results.mem_offsets] using notWritten
      exact hne (by rw [commit_crc, kept]; rfl)
    refine ⟨_, rest, hp, .inl ⟨w, rfl, ?_⟩⟩
    obtain rfl | ⟨len, seed, rfl⟩ := crc_command_of_written written
    · exact .inl hd
    · exact .inr ⟨len, seed, hd⟩
  · exact ⟨ev, rest, hp, .inr hreset⟩

/-- Settles O45: results are committed with `ERR = 0`, and NOP commits none. -/
theorem resultsAreWrittenOnlyBySuccess : Obligations.ResultsAreWrittenOnlyBySuccess := by
  intro s t h hne
  have changed : resultRegs t ≠ resultRegs s := by
    intro eq
    obtain hres | hrese | hresm := hne
    · exact hres (congrArg (·.1) eq)
    · exact hrese (congrArg (·.2.1) eq)
    · exact hresm (congrArg (·.2.2.1) eq)
  obtain ⟨ev, rest, hp, ⟨w, i, d, rfl, hd, fits, rfl⟩ | hreset⟩ := step_changes_results h changed
  · refine ⟨_, rest, hp, .inl ⟨w, i, rfl, hd, ?_, rfl⟩⟩
    rintro rfl
    have none_written : d.offsets = [] := (List.cons.inj fits.writes).2.symm
    exact changed (resultRegs_commit_of_nil _ none_written)
  · exact ⟨ev, rest, hp, .inr hreset⟩

/-- Settles O49: asserting reset sets the eight fields and raises the level, and keeps what belongs to the outside. -/
theorem resetSetsEveryField : Obligations.ResetSetsEveryField :=
  ⟨fieldsReset_reset, fun _ _ hp => ⟨_, step_of_pending hp, fieldsReset_assertReset _, rfl, rfl, rfl⟩⟩
end

section
/-! Proofs. The register window (spec/20_memory.md R40 to R50): what a read of each offset returns as a number, what a write of
each register does, which accesses reach no register, and the order of events. -/

namespace Sys2Proof.Machine

open Sys2Proof.Stated

/-! ### The offsets of the window (R40 to R42) -/

theorem aligned_inWindow {k : Nat} (h : k < 16) : inWindow (4 * (k : Int)) = true :=
  (inWindow_iff _).2 (by omega)

theorem aligned_admitted (k : Nat) : admitted (4 * (k : Int)) 4 = true :=
  (admitted_iff _ _).2 ⟨rfl, by omega⟩

theorem aligned_toNat (k : Nat) : (4 * (k : Int)).toNat = 4 * k := by omega

/-- The mapped registers fill the first nine aligned offsets (R41). -/
theorem exists_register_at {k : Nat} (h : k < 9) : ∃ r : Reg, r.offset = 4 * k := by
  interval_cases k
  exacts [⟨.cmd, rfl⟩, ⟨.status, rfl⟩, ⟨.opaLo, rfl⟩, ⟨.opaHi, rfl⟩, ⟨.resLo, rfl⟩, ⟨.resHi, rfl⟩, ⟨.rese, rfl⟩,
    ⟨.resm, rfl⟩, ⟨.crc, rfl⟩]

theorem Reg.offset_le (r : Reg) : r.offset ≤ 0x20 := by cases r <;> decide

/-- Nothing is mapped above CRC (R41). -/
theorem ofOffset_above_crc {n : Nat} (h : 0x20 < n) : Reg.ofOffset n = none := by
  cases hr : Reg.ofOffset n with
  | none => rfl
  | some r =>
    have := r.offset_le
    have := offset_ofOffset hr
    omega

/-! ### What a read returns (R41, R43) -/

/-- `STATUS` as a number: `ERR` in bits 3 to 0 and `STICKY` in bit 8 (R22). -/
theorem statusWord_toNat (s : State) : (statusWord s).toNat = s.err.toNat + 256 * s.sticky.toNat := by
  simp only [statusWord, toNat_append_eq, BitVec.toNat_ofBool, BitVec.ofNat_eq_ofNat, BitVec.toNat_ofNat,
    Nat.zero_mod]
  omega

theorem lowHalf_toNat (x : DWord) : (x.extractLsb 31 0).toNat = x.toNat % 2 ^ 32 := by simp

theorem highHalf_toNat (x : DWord) : (x.extractLsb 63 32).toNat = x.toNat / 2 ^ 32 := by
  have := x.isLt
  rw [BitVec.extractLsb_toNat, Nat.shiftRight_eq_div_pow]
  omega

/-- A mapped register reads as R41's column says for its offset. -/
theorem Reg.read_toNat (r : Reg) (s : State) : (r.read s).toNat = (readColumn s).getD (r.offset / 4) 0 := by
  cases r with
  | status => exact statusWord_toNat s
  | opaLo => exact lowHalf_toNat s.opa
  | opaHi => exact highHalf_toNat s.opa
  | resLo => exact lowHalf_toNat s.res
  | resHi => exact highHalf_toNat s.res
  | crc => exact BitVec.toNat_setWidth_of_le (by decide)
  | cmd | rese | resm => rfl

/-- R41's column ends in seven unmapped offsets, which read as zero. -/
theorem readColumn_unmapped {k : Nat} (s : State) (mapped : 9 ≤ k) (h : k < 16) : (readColumn s).getD k 0 = 0 := by
  interval_cases k <;> rfl

theorem readOffset_toNat {k : Nat} (h : k < 16) (s : State) :
    (readOffset (4 * k) s).toNat = (readColumn s).getD k 0 := by
  obtain hk | hk := Nat.lt_or_ge k 9
  · obtain ⟨r, hr⟩ := exists_register_at hk
    rw [← hr, readOffset_mapped, Reg.read_toNat, hr, Nat.mul_div_cancel_left k (by decide)]
  · rw [readOffset, ofOffset_above_crc (by omega), readColumn_unmapped s hk h]
    rfl

/-! ### What a write does (R44, R47, R174) -/

theorem getLsbD_iff_bitsOf {n : Nat} (v : BitVec n) (i : Nat) : v.getLsbD i = true ↔ bitsOf v.toNat i 1 = 1 := by
  rw [← BitVec.testBit_toNat, Nat.testBit_eq_decide_div_mod_eq, decide_eq_true_iff, bitsOf, pow_one]

theorem writeStatus_of_set {v : Word} (h : v.getLsbD 8 = true) (s : State) :
    writeStatus v s = { s with sticky := false } := if_pos h

theorem writeStatus_of_clear {v : Word} (h : ¬ v.getLsbD 8 = true) (s : State) : writeStatus v s = s := if_neg h

theorem writeOpaLo_toNat (v : Word) (s : State) :
    (writeOpaLo v s).opa.toNat = s.opa.toNat / 2 ^ 32 * 2 ^ 32 + v.toNat := by
  rw [writeOpaLo_opa, toNat_append_eq, highHalf_toNat]

theorem writeOpaHi_toNat (v : Word) (s : State) :
    (writeOpaHi v s).opa.toNat = v.toNat * 2 ^ 32 + s.opa.toNat % 2 ^ 32 := by
  rw [writeOpaHi_opa, toNat_append_eq, lowHalf_toNat]

/-- Above `OPA` every offset of the window is read-only or unmapped, and ignores a write (R41, R44). -/
theorem writeOffset_above_opa {n : Nat} (h : 0x0C < n) (v : Word) (s : State) : writeOffset n v s = .next s := by
  rw [writeOffset]
  cases hr : Reg.ofOffset n with
  | none => rfl
  | some r =>
    have hn := offset_ofOffset hr
    cases r with
    | cmd | status | opaLo | opaHi => simp only [Reg.offset] at hn; omega
    | resLo | resHi | rese | resm | crc => rfl

/-! ### Accesses that reach no register (R40, R42, R175) -/

/-- The byte offset of an access, counted from `BASE` (R10). -/
def HostAccess.offset : HostAccess → Int
  | .read offset _ => offset
  | .write offset _ _ => offset

/-- The width of an access in bytes (R42). -/
def HostAccess.size : HostAccess → Nat
  | .read _ size => size
  | .write _ size _ => size

/-- An access outside the window is not decoded, read or write. -/
theorem hostAccess_outside {a : HostAccess} {s : State} (hr : s.resetAsserted = false)
    (hw : inWindow a.offset = false) : hostAccess a s = .next (respond .notDecoded s) := by
  cases a with
  | read offset size => simp [hostAccess, hostRead, hr, show inWindow offset = false from hw]
  | write offset size v => simp [hostAccess, hostWrite, hr, show inWindow offset = false from hw]

/-- An access to the window that R42 does not admit is a fault on the bus, read or write. -/
theorem hostAccess_notAdmitted {a : HostAccess} {s : State} (hr : s.resetAsserted = false)
    (hw : inWindow a.offset = true) (ha : admitted a.offset a.size = false) :
    hostAccess a s = .next (respond .accessFault s) := by
  cases a with
  | read offset size =>
    simp [hostAccess, hostRead, hr, show inWindow offset = true from hw, show admitted offset size = false from ha]
  | write offset size v =>
    simp [hostAccess, hostWrite, hr, show inWindow offset = true from hw, show admitted offset size = false from ha]

theorem step_access_outside {a : HostAccess} {rest : List HostEvent} {s : State} (hr : s.resetAsserted = false)
    (hw : inWindow a.offset = false) (h : s.pending = .access a :: rest) :
    step s = .next { s with pending := rest, responses := .notDecoded :: s.responses } :=
  (step_of_pending h).trans (hostAccess_outside hr hw)

theorem step_access_notAdmitted {a : HostAccess} {rest : List HostEvent} {s : State} (hr : s.resetAsserted = false)
    (hw : inWindow a.offset = true) (ha : admitted a.offset a.size = false) (h : s.pending = .access a :: rest) :
    step s = .next { s with pending := rest, responses := .accessFault :: s.responses } :=
  (step_of_pending h).trans (hostAccess_notAdmitted hr hw ha)

/-! ### The order of events (R50) -/

/-- A step handles the oldest event with the later ones left pending. -/
theorem step_withPending (ev : HostEvent) (later : List HostEvent) (s : State) :
    step { s with pending := ev :: later } = handle ev { s with pending := later } := step_of_pending rfl

/-! ### Byte lanes (R46) -/

/-- Byte `k` of the register at an aligned offset. -/
theorem windowByte_toNat {offset k : Nat} (s : State) (aligned : offset % 4 = 0) (hk : k < 4) :
    (windowByte (offset + k) s).toNat = bitsOf (readOffset offset s).toNat (8 * k) 8 := by
  have lane : (offset + k) % 4 = k := by omega
  rw [windowByte, lane, Nat.add_sub_cancel, BitVec.extractLsb'_toNat, Nat.shiftRight_eq_div_pow, bitsOf]

/-- A 32-bit number is the little-endian sum of its four bytes. -/
theorem sum_bytes_eq {x : Nat} (h : x < 2 ^ 32) : ∑ k ∈ Finset.range 4, bitsOf x (8 * k) 8 * 2 ^ (8 * k) = x := by
  simp only [Finset.sum_range_succ, Finset.sum_range_zero, bitsOf]
  omega

end Sys2Proof.Machine

open Sys2Proof Sys2Proof.Machine Sys2Proof.Stated

/-- Settles O37: the step answers with `readOffset` (`step_read`), which is R41's column (`readOffset_toNat`). -/
theorem readsReturnTheRegisterMap : Obligations.ReadsReturnTheRegisterMap := by
  intro k rest s hk hr hp
  refine ⟨_, step_read hr (aligned_inWindow hk) (aligned_admitted k) hp, ?_⟩
  rw [aligned_toNat, readOffset_toNat hk]

/-- Settles O38: STATUS and the halves of `OPA` by their own writes, the offsets above by `writeOffset_above_opa`. -/
theorem writesFollowTheRegisterMap : Obligations.WritesFollowTheRegisterMap := by
  intro v rest s hr
  refine ⟨fun hp => ⟨fun set => ?_, fun clear => ?_⟩, fun hp => ?_, fun hp => ?_, fun k above hk hp => ?_⟩
  · rw [step_wr (r := .status) hr hp, Reg.write, writeStatus_of_set ((getLsbD_iff_bitsOf v 8).2 set)]
  · have notSet : ¬ v.getLsbD 8 = true := by rw [getLsbD_iff_bitsOf, clear]; decide
    rw [step_wr (r := .status) hr hp, Reg.write, writeStatus_of_clear notSet]
  · exact ⟨_, step_wr (r := .opaLo) hr hp, writeOpaLo_toNat v s⟩
  · exact ⟨_, step_wr (r := .opaHi) hr hp, writeOpaHi_toNat v s⟩
  · rw [step_write hr (aligned_inWindow hk) (aligned_admitted k) hp, aligned_toNat, writeOffset_above_opa (by omega)]

/-- Settles O39: the port answers before any register is reached (`hostAccess_notAdmitted`). -/
theorem badAccessesChangeNothing : Obligations.BadAccessesChangeNothing := by
  intro offset size v rest s lower upper bad hr hp
  have hw : inWindow offset = true := (inWindow_iff offset).2 ⟨lower, upper⟩
  have ha : admitted offset size = false := by
    rw [Bool.eq_false_iff, Ne, admitted_iff, not_and_or]
    exact bad
  obtain hp | hp := hp
  · exact step_access_notAdmitted (a := .read offset size) hr hw ha hp
  · exact step_access_notAdmitted (a := .write offset size v) hr hw ha hp

/-- Settles O40: the offset counted from `BASE` lies outside the window, whatever `BASE` is. -/
theorem addressesOutsideTheWindowAreNotDecoded : Obligations.AddressesOutsideTheWindowAreNotDecoded := by
  intro address size v rest s outside hr hp
  have hw : inWindow (address - Config.base) = false := by
    rw [Bool.eq_false_iff, Ne, inWindow_iff]
    omega
  obtain hp | hp := hp
  · exact step_access_outside (a := memRead address size) hr hw hp
  · exact step_access_outside (a := memWrite address size v) hr hw hp

/-- Settles O46: an aligned offset plus `k` names lane `k` of that register (`windowByte_toNat`). -/
theorem windowBytesAreLittleEndian : Obligations.WindowBytesAreLittleEndian := by
  intro offset s _ aligned
  refine ⟨fun k hk => windowByte_toNat s aligned hk, ?_⟩
  calc (readOffset offset s).toNat
      = ∑ k ∈ Finset.range 4, bitsOf (readOffset offset s).toNat (8 * k) 8 * 2 ^ (8 * k) :=
        (sum_bytes_eq (readOffset offset s).isLt).symm
    _ = ∑ k ∈ Finset.range 4, (windowByte (offset + k) s).toNat * 2 ^ (8 * k) :=
        Finset.sum_congr rfl fun k hk => by rw [windowByte_toNat s aligned (Finset.mem_range.1 hk)]

/-- Settles O47: a step hands its oldest event to `handle` with the later ones left on the list, and `handle` neither changes
that list nor depends on it. -/
theorem eventsTakeEffectInOrder : Obligations.EventsTakeEffectInOrder := by
  intro ev later later' s t h
  rw [step_withPending] at h ⊢
  exact ⟨handle_keeps_pending h, handle_withPending (s := { s with pending := later }) later' h⟩
end

section
/-! Proofs. The encoding (spec/30_encoding.md R60 to R71): the fields of a word and the word of a command as plain numbers, the
rows of the opcode table, and the two round trips, which say together that a well-formed command has exactly one word. -/

namespace Sys2Proof

open Machine (sext wrap zext)
open Stated

/-! ### The fields of a word as numbers (R61 to R66) -/

theorem toNat_extractLsb_eq_bitsOf {n : Nat} (v : BitVec n) (hi lo : Nat) :
    (v.extractLsb hi lo).toNat = bitsOf v.toNat lo (hi - lo + 1) := by
  rw [BitVec.extractLsb_toNat, Nat.shiftRight_eq_div_pow, bitsOf]

/-- Reading a pattern as two's complement is R8's formula on its number. -/
theorem sext_eq_signedField {n : Nat} (hn : 0 < n) (p : BitVec n) : sext p = signedField n p.toNat := by
  have double : 2 ^ n = 2 * 2 ^ (n - 1) := by rw [← pow_succ', Nat.sub_add_cancel hn]
  rw [sext, signedField, BitVec.toInt_eq_toNat_cond]
  by_cases negative : 2 ^ (n - 1) ≤ p.toNat
  · rw [if_neg (by omega), if_pos negative]
    push_cast
    rfl
  · rw [if_pos (by omega), if_neg negative]

theorem widthField_eq (w : Word) : widthField w = bitsOf w.toNat 4 7 := toNat_extractLsb_eq_bitsOf w 10 4

theorem lengthField_eq (w : Word) : lengthField w = lengthOf w.toNat :=
  congrArg (· + 1) (toNat_extractLsb_eq_bitsOf w 14 12)

theorem orderField_eq (w : Word) : orderField w = Stated.orderOf w.toNat := by
  simp only [orderField, Stated.orderOf, Machine.getLsbD_iff_bitsOf]

theorem seedField_eq (w : Word) : seedField w = (bitsOf w.toNat 16 1 == 1) := by
  rw [seedField, Bool.eq_iff_iff, Machine.getLsbD_iff_bitsOf, beq_iff_eq]

theorem exponentField_eq (w : Word) : exponentField w = exponentOf w.toNat := by
  rw [exponentField, sext_eq_signedField (by decide), toNat_extractLsb_eq_bitsOf]
  rfl

/-! ### The word of a command as a number (R71) -/

/-- R71's column "word" on plain numbers. -/
def Instr.wordNumber : Instr → Nat
  | .nop => 0x0
  | .twosDec n => 0x1 + n * 2 ^ 4
  | .twosEnc n => 0x2 + n * 2 ^ 4
  | .b2u len order => 0x3 + (len - 1) * 2 ^ 12 + orderBit order * 2 ^ 15
  | .u2b len order => 0x4 + (len - 1) * 2 ^ 12 + orderBit order * 2 ^ 15
  | .lin11Dec => 0x5
  | .lin11Enc e => 0x6 + (e % 32).toNat * 2 ^ 20
  | .ulin16Dec e => 0x7 + (e % 32).toNat * 2 ^ 20
  | .ulin16Enc e => 0x8 + (e % 32).toNat * 2 ^ 20
  | .vmodeDec => 0x9
  | .crcClr => 0xA
  | .crcUpd len seed => 0xB + (len - 1) * 2 ^ 12 + seed.toNat * 2 ^ 16

theorem orderBits_eq (order : ByteOrder) : orderBits order = BitVec.ofNat 32 (orderBit order) <<< 15 := by
  cases order <;> rfl

theorem seedBits_eq (seed : Bool) : seedBits seed = BitVec.ofNat 32 seed.toNat <<< 16 := by
  cases seed <;> rfl

theorem exponentBits_eq (e : Int) : exponentBits e = BitVec.ofNat 32 (e % 32).toNat <<< 20 := by
  rw [exponentBits, zext, ← BitVec.ofNat_toNat, wrap, BitVec.toNat_ofInt]
  rfl

theorem orderBit_lt (order : ByteOrder) : orderBit order < 2 := by cases order <;> decide

theorem lengthEncodable_iff {len : Nat} : lengthEncodable len = true ↔ 1 ≤ len ∧ len ≤ 8 := by
  simp only [lengthEncodable, Bool.and_eq_true, decide_eq_true_eq]

theorem exponentEncodable_iff {e : Int} : exponentEncodable e = true ↔ -16 ≤ e ∧ e ≤ 15 := by
  simp only [exponentEncodable, Bool.and_eq_true, decide_eq_true_eq]

/-- A field set above the bits of `a` adds its value at its place. -/
theorem toNat_or_field {a : Word} {x lo : Nat} (below : a.toNat < 2 ^ lo) (fits : x * 2 ^ lo < 2 ^ 32) :
    (a ||| BitVec.ofNat 32 x <<< lo).toNat = a.toNat + x * 2 ^ lo := by
  have hx : x < 2 ^ 32 := lt_of_le_of_lt (Nat.le_mul_of_pos_right x (by positivity)) fits
  rw [BitVec.toNat_or, BitVec.toNat_shiftLeft, BitVec.toNat_ofNat, Nat.mod_eq_of_lt hx, Nat.shiftLeft_eq,
    Nat.mod_eq_of_lt fits, mul_comm x, Nat.or_comm, ← Nat.two_pow_add_eq_or_of_lt below, Nat.add_comm]

theorem widthWord_toNat {n : Nat} (hn : widthEncodable n = true) (c : Word) (hc : c.toNat < 2 ^ 4) :
    (c ||| widthBits n).toNat = c.toNat + n * 2 ^ 4 := by
  have := of_decide_eq_true hn
  exact toNat_or_field hc (by omega)

theorem lengthWord_toNat {len : Nat} (hlen : lengthEncodable len = true) (c : Word) (hc : c.toNat < 2 ^ 12) :
    (c ||| lengthBits len).toNat = c.toNat + (len - 1) * 2 ^ 12 := by
  rw [lengthEncodable_iff] at hlen
  exact toNat_or_field hc (by omega)

theorem exponentWord_toNat (e : Int) (c : Word) (hc : c.toNat < 2 ^ 20) :
    (c ||| exponentBits e).toNat = c.toNat + (e % 32).toNat * 2 ^ 20 := by
  rw [exponentBits_eq]
  exact toNat_or_field hc (by omega)

theorem orderedWord_toNat {len : Nat} (hlen : lengthEncodable len = true) (order : ByteOrder) (c : Word)
    (hc : c.toNat < 2 ^ 12) :
    (c ||| lengthBits len ||| orderBits order).toNat = c.toNat + (len - 1) * 2 ^ 12 + orderBit order * 2 ^ 15 := by
  have low := lengthWord_toNat hlen c hc
  rw [lengthEncodable_iff] at hlen
  have := orderBit_lt order
  rw [orderBits_eq, toNat_or_field (by omega) (by omega), low]

theorem seededWord_toNat {len : Nat} (hlen : lengthEncodable len = true) (seed : Bool) (c : Word)
    (hc : c.toNat < 2 ^ 12) :
    (c ||| lengthBits len ||| seedBits seed).toNat = c.toNat + (len - 1) * 2 ^ 12 + seed.toNat * 2 ^ 16 := by
  have low := lengthWord_toNat hlen c hc
  rw [lengthEncodable_iff] at hlen
  have := seed.toNat_lt
  rw [seedBits_eq, toNat_or_field (by omega) (by omega), low]

theorem encode_toNat {i : Instr} (h : i.wellFormed = true) : (encode i).toNat = i.wordNumber := by
  cases i with
  | nop | lin11Dec | vmodeDec | crcClr => rfl
  | twosDec n | twosEnc n => exact widthWord_toNat h _ (by decide)
  | b2u len order | u2b len order => exact orderedWord_toNat h order _ (by decide)
  | lin11Enc e | ulin16Dec e | ulin16Enc e => exact exponentWord_toNat e _ (by decide)
  | crcUpd len seed => exact seededWord_toNat h seed _ (by decide)

/-! ### Selecting a row (R67) -/

/-- The word selects the operation's row: `(w & mask) = match` (R67). -/
def Op.Selects (op : Op) (w : Word) : Prop := w &&& op.mask = op.pattern

theorem ofField_pattern (op : Op) : Op.ofField (op.pattern.extractLsb 3 0) = some op := by cases op <;> rfl

theorem mask_opField (op : Op) : op.mask.extractLsb 3 0 = BitVec.allOnes 4 := by cases op <;> rfl

theorem opField_of_selects {op : Op} {w : Word} (h : op.Selects w) : w.extractLsb 3 0 = op.pattern.extractLsb 3 0 := by
  rw [← h, BitVec.extractLsb_and, mask_opField, BitVec.and_allOnes]

theorem decode_of_selects {op : Op} {w : Word} (h : op.Selects w) : decode w = .ok (op.command w) := by
  simp only [decode, opField_of_selects h, ofField_pattern]
  exact if_pos h

theorem command_op (op : Op) (w : Word) : (op.command w).op = op := by cases op <;> rfl

/-- A word decodes to a command exactly when it selects the row of its operation and the row's fields are its operands. -/
theorem decode_eq_ok_iff {w : Word} {i : Instr} : decode w = .ok i ↔ i.op.Selects w ∧ i.op.command w = i := by
  constructor
  · intro h
    unfold decode at h
    split at h
    · cases h
    · split_ifs at h with selected
      cases h
      rw [command_op]
      exact ⟨selected, rfl⟩
  · rintro ⟨selected, hi⟩
    rw [decode_of_selects selected, hi]

/-! ### Decoding the word of a command (R71) -/

theorem encode_selects {i : Instr} (h : i.wellFormed = true) : i.op.Selects (encode i) := by
  cases i with
  | nop => exact Laws.WordShape.nop h
  | twosDec n => exact Laws.WordShape.twosDec n h
  | twosEnc n => exact Laws.WordShape.twosEnc n h
  | b2u len order => exact Laws.WordShape.b2u len order h
  | u2b len order => exact Laws.WordShape.u2b len order h
  | lin11Dec => exact Laws.WordShape.lin11Dec h
  | lin11Enc e => exact Laws.WordShape.lin11Enc e h
  | ulin16Dec e => exact Laws.WordShape.ulin16Dec e h
  | ulin16Enc e => exact Laws.WordShape.ulin16Enc e h
  | vmodeDec => exact Laws.WordShape.vmodeDec h
  | crcClr => exact Laws.WordShape.crcClr h
  | crcUpd len seed => exact Laws.WordShape.crcUpd len seed h

/-- A field of a sum of fields: what lies below it and what lies above it do not matter. -/
theorem bitsOf_field {below x lo len : Nat} (above : Nat) (hbelow : below < 2 ^ lo) (hx : x < 2 ^ len) :
    bitsOf (below + x * 2 ^ lo + above * 2 ^ (lo + len)) lo len = x := by
  have shift : below + x * 2 ^ lo + above * 2 ^ (lo + len) = below + (x + above * 2 ^ len) * 2 ^ lo := by ring
  rw [bitsOf, shift, Nat.add_mul_div_right _ _ (by positivity), Nat.div_eq_of_lt hbelow, Nat.zero_add,
    Nat.add_mul_mod_self_right, Nat.mod_eq_of_lt hx]

theorem bitsOf_topField {below x lo : Nat} (len : Nat) (hbelow : below < 2 ^ lo) (hx : x < 2 ^ len) :
    bitsOf (below + x * 2 ^ lo) lo len = x := by
  simpa using bitsOf_field 0 hbelow hx

theorem widthOf_word {n : Nat} (hn : widthEncodable n = true) {c : Nat} (hc : c < 2 ^ 4) :
    bitsOf (c + n * 2 ^ 4) 4 7 = n :=
  bitsOf_topField 7 hc (Nat.lt_succ_of_le (of_decide_eq_true hn))

theorem exponentOf_word {e : Int} (he : exponentEncodable e = true) {c : Nat} (hc : c < 2 ^ 20) :
    exponentOf (c + (e % 32).toNat * 2 ^ 20) = e := by
  rw [exponentEncodable_iff] at he
  rw [exponentOf, bitsOf_topField 5 hc (by omega), signedField]
  split_ifs <;> omega

theorem lengthOf_word {len : Nat} (hlen : lengthEncodable len = true) {c : Nat} (hc : c < 2 ^ 12) (above : Nat) :
    lengthOf (c + (len - 1) * 2 ^ 12 + above * 2 ^ 15) = len := by
  rw [lengthEncodable_iff] at hlen
  rw [lengthOf, bitsOf_field (len := 3) above hc (by omega)]
  omega

theorem orderOf_word {len : Nat} (hlen : lengthEncodable len = true) {c : Nat} (hc : c < 2 ^ 12) (order : ByteOrder) :
    Stated.orderOf (c + (len - 1) * 2 ^ 12 + orderBit order * 2 ^ 15) = order := by
  rw [lengthEncodable_iff] at hlen
  rw [Stated.orderOf, bitsOf_topField 1 (by omega) (orderBit_lt order)]
  cases order <;> rfl

theorem seedOf_word {len : Nat} (hlen : lengthEncodable len = true) {c : Nat} (hc : c < 2 ^ 12) (seed : Bool) :
    (bitsOf (c + (len - 1) * 2 ^ 12 + seed.toNat * 2 ^ 16) 16 1 == 1) = seed := by
  rw [lengthEncodable_iff] at hlen
  rw [bitsOf_topField 1 (by omega) seed.toNat_lt]
  cases seed <;> rfl

theorem command_encode {i : Instr} (h : i.wellFormed = true) : i.op.command (encode i) = i := by
  have word := encode_toNat h
  cases i with
  | nop | lin11Dec | vmodeDec | crcClr => rfl
  | twosDec n | twosEnc n =>
    simp only [Instr.op, Op.command, widthField_eq, word, Instr.wordNumber]
    rw [widthOf_word h (by decide)]
  | b2u len order | u2b len order =>
    simp only [Instr.op, Op.command, lengthField_eq, orderField_eq, word, Instr.wordNumber]
    rw [lengthOf_word h (by decide), orderOf_word h (by decide)]
  | lin11Enc e | ulin16Dec e | ulin16Enc e =>
    simp only [Instr.op, Op.command, exponentField_eq, word, Instr.wordNumber]
    rw [exponentOf_word h (by decide)]
  | crcUpd len seed =>
    simp only [Instr.op, Op.command, lengthField_eq, seedField_eq, word, Instr.wordNumber]
    rw [seedOf_word h (by decide), show seed.toNat * 2 ^ 16 = 2 * seed.toNat * 2 ^ 15 by omega,
      lengthOf_word h (by decide)]

theorem decode_encode {i : Instr} (h : i.wellFormed = true) : decode (encode i) = .ok i :=
  decode_eq_ok_iff.2 ⟨encode_selects h, command_encode h⟩

/-! ### Encoding the command of a word (R67, R69) -/

/-- A field read off a word and put back in its place. -/
theorem field_in_place (w : Word) (lo len : Nat) :
    BitVec.ofNat 32 (bitsOf w.toNat lo len) <<< lo = w &&& BitVec.ofNat 32 (2 ^ len - 1) <<< lo := by
  apply BitVec.eq_of_getLsbD_eq
  intro k _
  rw [BitVec.getLsbD_and, BitVec.getLsbD_shiftLeft, BitVec.getLsbD_shiftLeft, BitVec.getLsbD_ofNat, BitVec.getLsbD_ofNat,
    bitsOf, Nat.testBit_mod_two_pow, Nat.testBit_div_two_pow, Nat.testBit_two_pow_sub_one, BitVec.testBit_toNat]
  by_cases below : k < lo
  · simp [below]
  · rw [Nat.sub_add_cancel (Nat.le_of_not_lt below)]
    ac_rfl

theorem bitsOf_lt (x lo len : Nat) : bitsOf x lo len < 2 ^ len := Nat.mod_lt _ (by positivity)

theorem orderBit_orderOf (x : Nat) : orderBit (Stated.orderOf x) = bitsOf x 15 1 := by
  have := bitsOf_lt x 15 1
  unfold Stated.orderOf
  split_ifs with h
  · exact h.symm
  · simp only [orderBit]; omega

theorem toNat_seedOf (x : Nat) : (bitsOf x 16 1 == 1).toNat = bitsOf x 16 1 := by
  have := bitsOf_lt x 16 1
  by_cases h : bitsOf x 16 1 = 1
  · rw [h]; rfl
  · rw [beq_false_of_ne h, Bool.toNat_false]; omega

theorem exponentOf_emod (x : Nat) : (exponentOf x % 32).toNat = bitsOf x 20 5 := by
  have := bitsOf_lt x 20 5
  unfold exponentOf signedField
  split_ifs <;> omega

theorem widthBits_widthField (w : Word) : widthBits (widthField w) = w &&& 0x7F0 := by
  rw [widthField_eq]
  exact field_in_place w 4 7

theorem lengthBits_lengthField (w : Word) : lengthBits (lengthField w) = w &&& 0x7000 := by
  rw [lengthField_eq]
  exact field_in_place w 12 3

theorem orderBits_orderField (w : Word) : orderBits (orderField w) = w &&& 0x8000 := by
  rw [orderField_eq, orderBits_eq, orderBit_orderOf]
  exact field_in_place w 15 1

theorem seedBits_seedField (w : Word) : seedBits (seedField w) = w &&& 0x10000 := by
  rw [seedField_eq, seedBits_eq, toNat_seedOf]
  exact field_in_place w 16 1

theorem exponentBits_exponentField (w : Word) : exponentBits (exponentField w) = w &&& 0x1F00000 := by
  rw [exponentField_eq, exponentBits_eq, exponentOf_emod]
  exact field_in_place w 20 5

/-- Encoding an operation with the fields of a word keeps the bits of the word that the operation's row uses. -/
theorem encode_command (op : Op) (w : Word) : encode (op.command w) = op.pattern ||| (w &&& ~~~op.mask) := by
  cases op with
  | nop | lin11Dec | vmodeDec | crcClr => simp [Op.command, encode, Op.pattern, Op.mask]
  | twosDec | twosEnc => simp only [Op.command, encode, widthBits_widthField]; rfl
  | b2u | u2b =>
    simp only [Op.command, encode, lengthBits_lengthField, orderBits_orderField]
    rw [BitVec.or_assoc, ← BitVec.and_or_distrib_left]
    rfl
  | lin11Enc | ulin16Dec | ulin16Enc => simp only [Op.command, encode, exponentBits_exponentField]; rfl
  | crcUpd =>
    simp only [Op.command, encode, lengthBits_lengthField, seedBits_seedField]
    rw [BitVec.or_assoc, ← BitVec.and_or_distrib_left]
    rfl

theorem encode_of_decode {w : Word} {i : Instr} (h : decode w = .ok i) : encode i = w := by
  obtain ⟨selected, hi⟩ := decode_eq_ok_iff.1 h
  calc encode i = encode (i.op.command w) := by rw [hi]
    _ = i.op.pattern ||| (w &&& ~~~i.op.mask) := encode_command _ _
    _ = (w &&& i.op.mask) ||| (w &&& ~~~i.op.mask) := by rw [selected]
    _ = w := by rw [← BitVec.and_or_distrib_left, BitVec.or_not_self, BitVec.and_allOnes]

/-- A well-formed command has exactly one word, R71's. -/
theorem hasWord_wordNumber {i : Instr} (h : i.wellFormed = true) : HasWord i i.wordNumber := by
  intro w
  rw [← encode_toNat h, BitVec.toNat_inj]
  exact ⟨fun hw => (encode_of_decode hw).symm, fun hw => hw ▸ decode_encode h⟩

end Sys2Proof

open Sys2Proof Sys2Proof.Machine Sys2Proof.Stated

/-- Settles O2: the word of a command lies in its operation's row, and each field of the row reads back the operand that was
put there. -/
theorem decodeOfEncodeIsTheCommand : Obligations.DecodeOfEncodeIsTheCommand := fun _ => decode_encode

/-- Settles O3: outside its row's fields a word is the row's `match`, and each field put back in its place is the word's own
bits (`encode_command`). -/
theorem encodeOfDecodeIsTheWord : Obligations.EncodeOfDecodeIsTheWord :=
  fun _ _ h => ⟨decode_wellFormed h, encode_of_decode h⟩
end

section
/-! Proofs. The opcode table (spec/30_encoding.md R67 to R70): its rows as those of the operations, the bits a row leaves
reserved, the legal words of each opcode, and the step that runs a command word. -/

namespace Sys2Proof

open Machine Stated

/-! ### R67's table -/

/-- The operations in the order of R67's table, which is that of their `OP` values. -/
def Op.all : List Op :=
  [.nop, .twosDec, .twosEnc, .b2u, .u2b, .lin11Dec, .lin11Enc, .ulin16Dec, .ulin16Enc, .vmodeDec, .crcClr, .crcUpd]

theorem all_getElem?_eq_some {k : Nat} {op : Op} : Op.all[k]? = some op ↔ op.pattern.toNat = k := by
  constructor
  · intro h
    obtain ⟨hk, rfl⟩ := List.getElem?_eq_some_iff.1 h
    change k < 12 at hk
    interval_cases k <;> rfl
  · rintro rfl
    cases op <;> rfl

/-- The row of R67's table for an operation: the rows stand in the order of their `match` values. -/
def Op.row (op : Op) : Row := opcodeTable[op.pattern.toNat]'(by cases op <;> decide)

theorem row_pattern (op : Op) : op.row.pattern = op.pattern.toNat := by cases op <;> rfl

theorem row_mask (op : Op) : op.row.mask = op.mask.toNat := by cases op <;> rfl

theorem row_command (op : Op) (w : Word) : op.row.command w.toNat = op.command w := by
  cases op with
  | nop | lin11Dec | vmodeDec | crcClr => rfl
  | twosDec | twosEnc => rw [Op.command, widthField_eq]; rfl
  | b2u | u2b => rw [Op.command, lengthField_eq, orderField_eq]; rfl
  | lin11Enc | ulin16Dec | ulin16Enc => rw [Op.command, exponentField_eq]; rfl
  | crcUpd => rw [Op.command, lengthField_eq, seedField_eq]; rfl

theorem row_selects {op : Op} {w : Word} : op.row.selects w ↔ op.Selects w := by
  rw [Row.selects, row_mask, row_pattern, ← BitVec.toNat_and, BitVec.toNat_inj, Op.Selects]

theorem opcodeTable_eq_map_row : opcodeTable = Op.all.map Op.row := rfl

theorem mem_all (op : Op) : op ∈ Op.all := by cases op <;> decide

/-- The rows of the table are those of the operations. -/
theorem mem_opcodeTable {r : Row} : r ∈ opcodeTable ↔ ∃ op : Op, op.row = r := by
  simp [opcodeTable_eq_map_row, mem_all]

theorem pattern_lt (op : Op) : op.pattern.toNat < 12 := by cases op <;> decide

theorem opNumber_of_selects {op : Op} {w : Word} (h : op.Selects w) : w.toNat % 16 = op.pattern.toNat := by
  have field := congrArg BitVec.toNat (opField_of_selects h)
  have := pattern_lt op
  simp only [toNat_extractLsb_eq_bitsOf, bitsOf] at field
  omega

theorem op_eq_of_selects {op op' : Op} {w : Word} (h : op.Selects w) (h' : op'.Selects w) : op = op' := by
  have same := (opField_of_selects h).symm.trans (opField_of_selects h')
  exact Option.some.inj (by rw [← ofField_pattern, same, ofField_pattern])

/-- A word that selects no row is no command. -/
theorem decode_of_unselected {w : Word} (h : ∀ op : Op, ¬ op.Selects w) : ∃ e, decode w = .error e := by
  cases hd : decode w with
  | error e => exact ⟨e, rfl⟩
  | ok i => exact absurd (decode_eq_ok_iff.1 hd).1 (h i.op)

/-! ### Reserved bits (R69) -/

/-- Where a row's mask is 0, the word's bit belongs to a field the row uses. -/
theorem usedBit_of_unmasked (op : Op) : ∀ k : Fin 32, op.mask.getLsbD k = false → usedBit op.pattern.toNat k := by
  unfold usedBit
  cases op <;> decide

theorem usedBit_of_selects {op : Op} {w : Word} {k : Nat} (h : op.Selects w) (hk : k < 32)
    (hset : bitsOf w.toNat k 1 = 1) : usedBit op.pattern.toNat k := by
  cases masked : op.mask.getLsbD k with
  | false => exact usedBit_of_unmasked op ⟨k, hk⟩ masked
  | true =>
    have hw : w.getLsbD k = true := (getLsbD_iff_bitsOf w k).2 hset
    have hp : op.pattern.getLsbD k = true := by rw [← h, BitVec.getLsbD_and, hw, masked]; rfl
    have low : 2 ^ k < 2 ^ 4 :=
      (Nat.ge_two_pow_of_testBit (by rwa [BitVec.testBit_toNat])).trans_lt ((pattern_lt op).trans (by decide))
    exact .inl ((Nat.pow_lt_pow_iff_right (by decide)).1 low)

theorem writeCmd_of_unselected {w : Word} (h : ∀ op : Op, ¬ op.Selects w) (s : State) :
    writeCmd w s = .next { s with cmd := w, err := 1, sticky := true } := by
  obtain ⟨e, he⟩ := decode_of_unselected h
  exact writeCmd_of_illegal he s

theorem exec_twos_badWidth {n : Nat} (h : n = 0 ∨ 64 < n) (s : State) :
    exec (.twosDec n) s = .next (recordError .badWidth s) ∧ exec (.twosEnc n) s = .next (recordError .badWidth s) := by
  have bad : widthBad n = true := by simpa [widthBad] using h
  simp only [exec, execTwosDec, execTwosEnc, bad, if_true, finish_error, and_self]

/-! ### The legal words (R70) -/

/-- The exponents of the field `EXP` (R62). -/
def exponents : List Int := (List.range 32).map fun k : Nat => (k : Int) - 16

/-- The operands of B2U and U2B (R64, R65). -/
def orderedLengths : List (Nat × ByteOrder) := List.range' 1 8 ×ˢ [.little, .big]

/-- The operands of CRC_UPD (R64, R66). -/
def seededLengths : List (Nat × Bool) := List.range' 1 8 ×ˢ [false, true]

/-- The well-formed commands of an operation. -/
def Op.commands : Op → List Instr
  | .nop => [.nop]
  | .twosDec => (List.range 128).map .twosDec
  | .twosEnc => (List.range 128).map .twosEnc
  | .b2u => orderedLengths.map fun p => .b2u p.1 p.2
  | .u2b => orderedLengths.map fun p => .u2b p.1 p.2
  | .lin11Dec => [.lin11Dec]
  | .lin11Enc => exponents.map .lin11Enc
  | .ulin16Dec => exponents.map .ulin16Dec
  | .ulin16Enc => exponents.map .ulin16Enc
  | .vmodeDec => [.vmodeDec]
  | .crcClr => [.crcClr]
  | .crcUpd => seededLengths.map fun p => .crcUpd p.1 p.2

theorem mem_widths {n : Nat} : n ∈ List.range 128 ↔ widthEncodable n = true := by
  rw [List.mem_range, decide_eq_true_iff, Nat.lt_succ_iff]

theorem mem_exponents {e : Int} : e ∈ exponents ↔ exponentEncodable e = true := by
  rw [exponentEncodable_iff, exponents, List.mem_map]
  constructor
  · rintro ⟨k, hk, rfl⟩
    rw [List.mem_range] at hk
    omega
  · intro he
    exact ⟨(e + 16).toNat, List.mem_range.2 (by omega), by omega⟩

theorem mem_lengths {len : Nat} : len ∈ List.range' 1 8 ↔ lengthEncodable len = true := by
  rw [lengthEncodable_iff, List.mem_range'_1]
  omega

theorem mem_orderedLengths {p : Nat × ByteOrder} : p ∈ orderedLengths ↔ lengthEncodable p.1 = true := by
  rw [orderedLengths, List.mem_product, mem_lengths]
  cases p.2 <;> simp

theorem mem_seededLengths {p : Nat × Bool} : p ∈ seededLengths ↔ lengthEncodable p.1 = true := by
  rw [seededLengths, List.mem_product, mem_lengths]
  cases p.2 <;> simp

theorem mem_commands_of_wellFormed {i : Instr} (h : i.wellFormed = true) : i ∈ i.op.commands := by
  cases i with
  | nop | lin11Dec | vmodeDec | crcClr => exact List.mem_singleton_self _
  | twosDec n | twosEnc n => exact List.mem_map_of_mem (mem_widths.2 h)
  | b2u len order | u2b len order => exact List.mem_map.2 ⟨(len, order), mem_orderedLengths.2 h, rfl⟩
  | lin11Enc e | ulin16Dec e | ulin16Enc e => exact List.mem_map_of_mem (mem_exponents.2 h)
  | crcUpd len seed => exact List.mem_map.2 ⟨(len, seed), mem_seededLengths.2 h, rfl⟩

theorem wellFormed_of_mem_commands {op : Op} {i : Instr} (h : i ∈ op.commands) : i.op = op ∧ i.wellFormed = true := by
  cases op with
  | nop | lin11Dec | vmodeDec | crcClr =>
    obtain rfl := List.mem_singleton.1 h
    exact ⟨rfl, rfl⟩
  | twosDec | twosEnc =>
    obtain ⟨n, hn, rfl⟩ := List.mem_map.1 h
    exact ⟨rfl, mem_widths.1 hn⟩
  | b2u | u2b =>
    obtain ⟨p, hp, rfl⟩ := List.mem_map.1 h
    exact ⟨rfl, mem_orderedLengths.1 hp⟩
  | lin11Enc | ulin16Dec | ulin16Enc =>
    obtain ⟨e, he, rfl⟩ := List.mem_map.1 h
    exact ⟨rfl, mem_exponents.1 he⟩
  | crcUpd =>
    obtain ⟨p, hp, rfl⟩ := List.mem_map.1 h
    exact ⟨rfl, mem_seededLengths.1 hp⟩

theorem nodup_exponents : exponents.Nodup :=
  List.nodup_range.map fun _ _ h => Int.natCast_inj.1 (sub_left_injective h)

theorem nodup_orderedLengths : orderedLengths.Nodup := List.Nodup.product List.nodup_range' (by decide)

theorem nodup_seededLengths : seededLengths.Nodup := List.Nodup.product List.nodup_range' (by decide)

theorem nodup_commands (op : Op) : op.commands.Nodup := by
  cases op with
  | nop | lin11Dec | vmodeDec | crcClr => exact List.nodup_singleton _
  | twosDec | twosEnc => exact List.nodup_range.map fun _ _ h => by injection h
  | b2u | u2b => exact nodup_orderedLengths.map fun _ _ h => by injection h with len order; exact Prod.ext len order
  | lin11Enc | ulin16Dec | ulin16Enc => exact nodup_exponents.map fun _ _ h => by injection h
  | crcUpd => exact nodup_seededLengths.map fun _ _ h => by injection h with len seed; exact Prod.ext len seed

theorem encode_injective {i j : Instr} (hi : i.wellFormed = true) (hj : j.wellFormed = true) (h : encode i = encode j) :
    i = j :=
  Except.ok.inj (by rw [← decode_encode hi, h, decode_encode hj])

/-- The legal words with the opcode `k`, each once. -/
def legalWords (k : Nat) : List Word :=
  match Op.all[k]? with
  | some op => op.commands.map encode
  | none => []

theorem legalWords_of_op {k : Nat} {op : Op} (h : op.pattern.toNat = k) : legalWords k = op.commands.map encode := by
  rw [legalWords, all_getElem?_eq_some.2 h]

theorem mem_legalWords {k : Nat} {w : Word} : w ∈ legalWords k ↔ w.toNat % 16 = k ∧ ∃ i, decode w = .ok i := by
  constructor
  · intro h
    unfold legalWords at h
    split at h
    · next op hop =>
      obtain ⟨i, hi, rfl⟩ := List.mem_map.1 h
      obtain ⟨rfl, wf⟩ := wellFormed_of_mem_commands hi
      exact ⟨(opNumber_of_selects (encode_selects wf)).trans (all_getElem?_eq_some.1 hop), i, decode_encode wf⟩
    · cases h
  · rintro ⟨hk, i, hd⟩
    obtain ⟨selected, -⟩ := decode_eq_ok_iff.1 hd
    rw [legalWords_of_op ((opNumber_of_selects selected).symm.trans hk)]
    exact List.mem_map.2 ⟨i, mem_commands_of_wellFormed (decode_wellFormed hd), encode_of_decode hd⟩

theorem nodup_legalWords (k : Nat) : (legalWords k).Nodup := by
  unfold legalWords
  split
  · exact (nodup_commands _).map_on fun i hi j hj =>
      encode_injective (wellFormed_of_mem_commands hi).2 (wellFormed_of_mem_commands hj).2
  · exact List.nodup_nil

theorem length_legalWords :
    (List.range 16).map (fun k => (legalWords k).length) = [1, 128, 128, 16, 16, 1, 32, 32, 32, 1, 1, 16, 0, 0, 0, 0] := by
  rfl

end Sys2Proof

open Sys2Proof Sys2Proof.Machine Sys2Proof.Stated

/-- Settles O4: the rows are those of the operations, and the word's opcode field tells which of them it can select. -/
theorem decodeFollowsTheOpcodeTable : Obligations.DecodeFollowsTheOpcodeTable := by
  intro w
  refine ⟨fun r hr selected => ?_, fun unselected => ?_, fun r hr r' hr' selected selected' => ?_⟩
  · obtain ⟨op, rfl⟩ := mem_opcodeTable.1 hr
    rw [row_command]
    exact decode_of_selects (row_selects.1 selected)
  · exact decode_of_unselected fun op selected =>
      unselected op.row (mem_opcodeTable.2 ⟨op, rfl⟩) (row_selects.2 selected)
  · obtain ⟨op, rfl⟩ := mem_opcodeTable.1 hr
    obtain ⟨op', rfl⟩ := mem_opcodeTable.1 hr'
    rw [op_eq_of_selects (row_selects.1 selected) (row_selects.1 selected')]

/-- Settles O5: a selected row has an opcode below 12 and no bit set but those it uses (`usedBit_of_selects`); the words with a
bad width are those of TWOS_DEC and TWOS_ENC, which fail when they run. -/
theorem reservedBitsAreIllegal : Obligations.ReservedBitsAreIllegal := by
  refine ⟨fun w s reserved => ?_, fun w k s hk hset unused => ?_, fun w n s hn bad word => ?_⟩
  · refine writeCmd_of_unselected (fun op selected => ?_) s
    have := opNumber_of_selects selected
    have := pattern_lt op
    omega
  · refine writeCmd_of_unselected (fun op selected => unused ?_) s
    rw [opNumber_of_selects selected]
    exact usedBit_of_selects selected hk hset
  · have wide : widthEncodable n = true := decide_eq_true hn
    obtain ⟨dec, enc⟩ := exec_twos_badWidth bad { s with cmd := w }
    rw [Nat.mul_comm 16 n] at word
    obtain word | word := word
    · rw [writeCmd_of_decode ((hasWord_wordNumber (i := .twosDec n) wide w).2 word)]
      exact dec
    · rw [writeCmd_of_decode ((hasWord_wordNumber (i := .twosEnc n) wide w).2 word)]
      exact enc

/-- Settles O6: the words of an operation's well-formed commands, whose number is a matter of their operands' ranges. -/
theorem legalWordsAreCounted : Obligations.LegalWordsAreCounted :=
  ⟨legalWords, fun _ _ => mem_legalWords, nodup_legalWords, length_legalWords, by rw [length_legalWords]; rfl⟩

/-- Settles O1: the words R71 prints, each decoded. -/
theorem writtenOutWordsDecode : Obligations.WrittenOutWordsDecode := by
  unfold Obligations.WrittenOutWordsDecode
  decide

/-- Settles O36: the write of `CMD` stores the word and runs what it decodes to (`step_exec`); `withFetchWord` puts that write
first and releases reset. -/
theorem stepRunsTheDecodedCommand : Obligations.StepRunsTheDecodedCommand := by
  refine ⟨fun w i rest s hr hp hd => step_exec hr hp hd, fun w i s hd => ?_⟩
  refine step_exec (s := s.withFetchWord 32 w.toNat) rfl ?_ hd
  rw [State.withFetchWord, Nat.mod_eq_of_lt w.isLt, BitVec.ofNat_toNat, BitVec.setWidth_eq]
  rfl
end

section
/-! Proofs. The pseudo-command `pec` (spec/30_encoding.md R72): what its accesses do, chunk by chunk, for any chunks of 1 to 8
bytes, and that splitting a message gives such chunks. -/

namespace Sys2Proof.Machine

open Sys2Proof.Stated

/-! ### Feeding chunks (R72, R142, R143) -/

/-- `t` is `s` with bytes fed into the PEC: `c` the CRC after them, `rest` still to come, and the registers that CRC_UPD does
not write as they were (R142). -/
structure Fed (c : Byte) (rest : List HostEvent) (s t : State) : Prop where
  crc : t.crc = c
  res : t.res.toNat = c.toNat
  err : t.err = 0
  sticky : t.sticky = s.sticky
  rese : t.rese = s.rese
  resm : t.resm = s.resm
  pending : t.pending = rest
  resetAsserted : t.resetAsserted = s.resetAsserted

theorem Fed.trans {c d : Byte} {mid rest : List HostEvent} {s t u : State} (first : Fed c mid s t) (second : Fed d rest t u) :
    Fed d rest s u :=
  { second with
    sticky := second.sticky.trans first.sticky
    rese := second.rese.trans first.rese
    resm := second.resm.trans first.resm
    resetAsserted := second.resetAsserted.trans first.resetAsserted }

theorem zext_toNat {m n : Nat} (h : m ≤ n) (p : BitVec m) : (zext n p).toNat = p.toNat := BitVec.toNat_setWidth_of_le h

/-- CRC_UPD on a packed chunk feeds the chunk's bytes, into the seed 0 or the running CRC (R142). -/
theorem step_crcUpd_pack {seed : Bool} {chunk : List Byte} {rest : List HostEvent} {s : State}
    (hlen : lengthEncodable chunk.length = true) (hr : s.resetAsserted = false) (hopa : s.opa = pack chunk)
    (hp : s.pending = execCmd (.crcUpd chunk.length seed) ++ rest) :
    ∃ t : State, step s = .next t ∧ Fed (pecFeed (if seed then 0 else s.crc) chunk) rest s t := by
  have bytes : bytesOf chunk.length s.opa = chunk := by rw [hopa, bytesOf_pack (lengthEncodable_iff.1 hlen).2]
  have executed := step_exec hr hp (decode_encode (i := .crcUpd chunk.length seed) hlen)
  simp only [exec, execCrcUpd, opaBytes, bytes, finish_ok] at executed
  exact ⟨_, executed, rfl, zext_toNat (m := 8) (n := 64) (by decide) _, rfl, rfl, rfl, rfl, rfl, rfl⟩

/-- One chunk takes three accesses: the halves of `OPA`, and CRC_UPD. -/
theorem run_pecChunk {seed : Bool} {chunk : List Byte} {rest : List HostEvent} {s : State}
    (hlen : lengthEncodable chunk.length = true) (hr : s.resetAsserted = false)
    (hp : s.pending = pecChunk seed chunk ++ rest) :
    ∃ t : State, core.run 3 s = .next t ∧ Fed (pecFeed (if seed then 0 else s.crc) chunk) rest s t := by
  rw [pecChunk, List.append_assoc] at hp
  obtain ⟨t, ht, fed⟩ := step_crcUpd_pack (rest := rest) hlen
    (s := { s with
      opa := pack chunk, pending := execCmd (.crcUpd chunk.length seed) ++ rest,
      responses := .written :: .written :: s.responses }) hr rfl rfl
  refine ⟨t, ?_, fed.crc, fed.res, fed.err, fed.sticky, fed.rese, fed.resm, fed.pending, fed.resetAsserted⟩
  rw [run_add 2 1 (run_ldOpa hr hp), run_succ 0 ht]
  rfl

/-- The chunks after the first are fed into the running CRC, one after the other. -/
theorem run_laterChunks {chunks : List (List Byte)} {rest : List HostEvent} {s t : State} {c : Byte}
    (hlen : ∀ chunk ∈ chunks, lengthEncodable chunk.length = true) (hr : s.resetAsserted = false)
    (fed : Fed c (chunks.flatMap (pecChunk false) ++ rest) s t) :
    ∃ u : State, core.run (3 * chunks.length) t = .next u ∧ Fed (pecFeed c chunks.flatten) rest s u := by
  induction chunks generalizing t c with
  | nil => exact ⟨t, rfl, fed⟩
  | cons chunk chunks ih =>
    obtain ⟨here, later⟩ := List.forall_mem_cons.1 hlen
    have hp : t.pending = pecChunk false chunk ++ (chunks.flatMap (pecChunk false) ++ rest) := by
      rw [fed.pending, List.flatMap_cons, List.append_assoc]
    obtain ⟨v, hv, fedHere⟩ := run_pecChunk here (fed.resetAsserted.trans hr) hp
    obtain ⟨u, hu, fedLater⟩ := ih later (fed.trans fedHere)
    rw [fed.crc] at fedLater
    refine ⟨u, ?_, ?_⟩
    · rw [List.length_cons, Nat.mul_succ, Nat.add_comm, run_add 3 _ hv, hu]
    · rwa [List.flatten_cons, pecFeed_append]

/-- R143: whatever the chunks, `pec` feeds the bytes of all of them into the seed 0. -/
theorem run_pecChunks {chunks : List (List Byte)} {rest : List HostEvent} {s : State} (hne : chunks ≠ [])
    (hlen : ∀ chunk ∈ chunks, lengthEncodable chunk.length = true) (hr : s.resetAsserted = false)
    (hp : s.pending = pecChunks chunks ++ rest) :
    ∃ t : State, core.run (3 * chunks.length) s = .next t ∧ Fed (crc8Pec chunks.flatten) rest s t := by
  cases chunks with
  | nil => exact absurd rfl hne
  | cons first later =>
    obtain ⟨hfirst, hlater⟩ := List.forall_mem_cons.1 hlen
    rw [pecChunks, List.append_assoc] at hp
    obtain ⟨t, ht, fed⟩ := run_pecChunk hfirst hr hp
    obtain ⟨u, hu, fedAll⟩ := run_laterChunks hlater hr fed
    refine ⟨u, ?_, ?_⟩
    · rw [List.length_cons, Nat.mul_succ, Nat.add_comm, run_add 3 _ ht, hu]
    · rwa [crc8Pec, List.flatten_cons, pecFeed_append]

/-! ### Splitting a message into chunks (R72) -/

/-- With enough fuel the chunks are the message's bytes in order, each chunk has 1 to 8 of them, and there is one for each
started eight bytes. -/
theorem chunksOf8_splits {fuel : Nat} {message : List Byte} (enough : message.length ≤ fuel) :
    (chunksOf8 fuel message).flatten = message ∧
      (∀ chunk ∈ chunksOf8 fuel message, lengthEncodable chunk.length = true) ∧
      (chunksOf8 fuel message).length = (message.length + 7) / 8 := by
  induction fuel generalizing message with
  | zero =>
    obtain rfl := List.length_eq_zero_iff.1 (Nat.le_zero.1 enough)
    exact ⟨rfl, nofun, rfl⟩
  | succ fuel ih =>
    cases message with
    | nil => exact ⟨rfl, nofun, rfl⟩
    | cons b bs =>
      obtain ⟨bytes, lengths, count⟩ := ih (message := (b :: bs).drop 8) (by simp at enough ⊢; omega)
      refine ⟨?_, List.forall_mem_cons.2 ⟨?_, lengths⟩, ?_⟩
      · rw [chunksOf8, List.flatten_cons, bytes, List.take_append_drop]
      · rw [lengthEncodable_iff, List.length_take, List.length_cons]
        omega
      · rw [chunksOf8, List.length_cons, count, List.length_drop, List.length_cons]
        omega

end Sys2Proof.Machine

open Sys2Proof Sys2Proof.Machine Sys2Proof.Stated

/-- Settles O29: the message is split into chunks (`chunksOf8_splits`), which feed its bytes (`run_pecChunks`), and the read
finds `CRC` as they left it. -/
theorem pecSequenceComputesCrc8Pec : Obligations.PecSequenceComputesCrc8Pec := by
  intro message rest s hne hr hp
  obtain ⟨bytes, lengths, count⟩ := chunksOf8_splits (le_refl message.length)
  have nonempty : chunksOf8 message.length message ≠ [] := fun h => hne (by rw [← bytes, h]; rfl)
  obtain ⟨t, ht, fed⟩ := run_pecChunks nonempty lengths hr hp
  rw [count] at ht
  rw [bytes] at fed
  have answered := step_read (fed.resetAsserted.trans hr) (register_inWindow .crc) (register_admitted .crc) fed.pending
  refine ⟨t, _, ht, fed.crc, answered, ?_⟩
  rw [Int.toNat_natCast, readOffset_mapped, ← fed.crc]
  exact zext_toNat (by decide) t.crc
end

section
/-! Proofs. NOP, two's complement and byte/integer conversion (spec/40_twos_bytes.md R80 to R85): what each command answers, the
byte sequences as sums over the places of a byte order, and the round trips. -/

namespace Sys2Proof.Machine

open Sys2Proof.Stated

variable {n len : Nat} (order : ByteOrder) (s : State)

/-! ### What the commands answer (R81 to R84) -/

theorem widthBad_eq_false (pos : 1 ≤ n) (fits : n ≤ 64) : widthBad n = false := by
  simp only [widthBad, Bool.or_eq_false_iff, beq_eq_false_iff_ne, decide_eq_false_iff_not]
  omega

theorem exec_twosDec (pos : 1 ≤ n) (fits : n ≤ 64) :
    exec (.twosDec n) s = .next { s with res := wrap 64 (sext (opaLow n s)), err := 0 } := by
  rw [exec, execTwosDec, widthBad_eq_false pos fits]
  rfl

theorem exec_twosEnc (pos : 1 ≤ n) (fits : n ≤ 64) :
    exec (.twosEnc n) s = .next { s with res := zext 64 (wrap n (opaSigned s)), err := 0 } := by
  rw [exec, execTwosEnc, widthBad_eq_false pos fits]
  rfl

theorem exec_b2u (len : Nat) :
    exec (.b2u len order) s = .next { s with res := pack (inOrder order (opaBytes len s)), err := 0 } := rfl

theorem opaSigned_eq_signedField : opaSigned s = signedField 64 s.opa.toNat := sext_eq_signedField (by decide) s.opa

theorem opaSigned_of_lt {s : State} (h : s.opa.toNat < 2 ^ 63) : opaSigned s = s.opa.toNat := by
  rw [opaSigned_eq_signedField, signedField, if_neg (by omega)]

theorem opaSigned_neg {s : State} (h : 2 ^ 63 ≤ s.opa.toNat) : opaSigned s < 0 := by
  have := s.opa.isLt
  rw [opaSigned_eq_signedField, signedField, if_pos h]
  omega

theorem exec_u2b_of_lt {s : State} (len : Nat) (h : s.opa.toNat < 2 ^ 63) :
    exec (.u2b len order) s =
      .next { s with res := pack (inOrder order (natToBytes len (s.opa.toNat % 2 ^ (8 * len)))), err := 0 } := by
  simp only [exec, execU2b, opaSigned_of_lt h, Int.toNat_natCast]
  rw [if_neg (by omega)]
  rfl

theorem exec_u2b_negative {s : State} (len : Nat) (h : 2 ^ 63 ≤ s.opa.toNat) :
    exec (.u2b len order) s = .next (recordError .negative s) := by
  simp only [exec, execU2b, if_pos (opaSigned_neg h), finish_error]

/-! ### Sign reading and wrapping (R8) -/

/-- A value of a signed range of up to 64 bits survives in a 64-bit register. -/
theorem sext_wrap_register {x : Int} (fits : n ≤ 64) (lo : -2 ^ (n - 1) ≤ x) (hi : x < 2 ^ (n - 1)) :
    sext (wrap 64 x) = x := by
  have : (2 : Int) ^ (n - 1) ≤ 2 ^ (64 - 1) := pow_le_pow_right₀ (by decide) (by omega)
  exact wrap_toInt (by decide) (by omega) (by omega)

theorem sext_wrap_sext (fits : n ≤ 64) (p : BitVec n) : sext (wrap 64 (sext p)) = sext p :=
  sext_wrap_register fits (sext_lower p) (sext_upper p)

theorem wrap_sext (p : BitVec n) : wrap n (sext p) = p := BitVec.ofInt_toInt

theorem low_zext (fits : n ≤ 64) (p : BitVec n) : (zext 64 p).setWidth n = p := by
  rw [zext, BitVec.setWidth_setWidth_of_le p fits, BitVec.setWidth_eq]

/-! ### Byte sequences in an order (R16, R65, R83, R84) -/

theorem byteAt_eq_opaByte (x : DWord) (i : Nat) : (byteAt x i).toNat = opaByte x i := byteAt_toNat x i

theorem natByte_toNat (t i : Nat) : (BitVec.ofNat 8 (t >>> (8 * i))).toNat = bitsOf t (8 * i) 8 := by
  rw [BitVec.toNat_ofNat, Nat.shiftRight_eq_div_pow, bitsOf]

theorem bytesToNat_map_range (f : Nat → Byte) (len : Nat) :
    bytesToNat ((List.range len).map f) = ∑ i ∈ Finset.range len, (f i).toNat * 2 ^ (8 * i) := by
  induction len generalizing f with
  | zero => rfl
  | succ len ih =>
    rw [List.range_succ_eq_map, List.map_cons, List.map_map, bytesToNat, ih, Finset.sum_range_succ', Finset.mul_sum,
      Nat.add_comm]
    congr 1
    · exact Finset.sum_congr rfl fun i _ => by rw [Function.comp_apply, Nat.mul_succ, pow_add]; ring
    · simp

/-- Putting a sequence in the order named is reading it through the places of that order. -/
theorem inOrder_map_range (f : Nat → Byte) (len : Nat) :
    inOrder order ((List.range len).map f) = (List.range len).map fun i => f (place order len i) := by
  cases order with
  | little => rfl
  | big =>
    rw [inOrder, ← List.map_reverse, List.range_eq_range', List.reverse_range', Nat.zero_add, List.map_map,
      ← List.range_eq_range']
    rfl

theorem inOrder_inOrder (bs : List Byte) : inOrder order (inOrder order bs) = bs := by
  cases order with
  | little => rfl
  | big => exact bs.reverse_reverse

/-- The bytes summed at their own places are the places summed with their own bytes: a place is its own inverse. -/
theorem sum_place_swap (f : Nat → Nat) (len : Nat) :
    ∑ i ∈ Finset.range len, f (place order len i) * 2 ^ (8 * i) =
      ∑ i ∈ Finset.range len, f i * 2 ^ (8 * place order len i) := by
  cases order with
  | little => rfl
  | big =>
    rw [← Finset.sum_range_reflect]
    refine Finset.sum_congr rfl fun i hi => ?_
    have inverse : len - 1 - (len - 1 - i) = i := by
      have := Finset.mem_range.1 hi
      omega
    simp only [place, inverse]

/-- The first `len` bytes of a number sum to it modulo `2^(8 len)`. -/
theorem sum_bytes_eq_mod (t len : Nat) :
    ∑ i ∈ Finset.range len, bitsOf t (8 * i) 8 * 2 ^ (8 * i) = t % 2 ^ (8 * len) := by
  induction len with
  | zero => simp [Nat.mod_one]
  | succ len ih => rw [Finset.sum_range_succ, ih, Nat.mul_succ, pow_add, Nat.mod_mul, bitsOf, Nat.mul_comm (2 ^ _)]

theorem bytesToNat_natToBytes (t len : Nat) : bytesToNat (natToBytes len t) = t % 2 ^ (8 * len) := by
  rw [natToBytes, bytesToNat_map_range, ← sum_bytes_eq_mod]
  exact Finset.sum_congr rfl fun i _ => by rw [natByte_toNat]

theorem pack_inOrder_opaBytes (fits : len ≤ 8) :
    (pack (inOrder order (opaBytes len s))).toNat =
      ∑ i ∈ Finset.range len, opaByte s.opa i * 2 ^ (8 * place order len i) := by
  rw [pack_toNat (by simpa [opaBytes] using fits), opaBytes, bytesOf, inOrder_map_range, bytesToNat_map_range]
  simp only [byteAt_eq_opaByte, sum_place_swap]

theorem pack_inOrder_natToBytes (fits : len ≤ 8) (t : Nat) :
    (pack (inOrder order (natToBytes len t))).toNat =
      ∑ i ∈ Finset.range len, bitsOf t (8 * place order len i) 8 * 2 ^ (8 * i) := by
  rw [pack_toNat (by simpa using fits), natToBytes, inOrder_map_range, bytesToNat_map_range]
  simp only [natByte_toNat]

/-- Unpacking what was packed and ordering it again gives the number back (R85). -/
theorem unpack_packed_toNat (fits : len ≤ 8) (t : Nat) :
    (pack (inOrder order (bytesOf len (pack (inOrder order (natToBytes len t)))))).toNat = t % 2 ^ (8 * len) := by
  have unpacked : bytesOf len (pack (inOrder order (natToBytes len t))) = inOrder order (natToBytes len t) := by
    simpa using bytesOf_pack (bs := inOrder order (natToBytes len t)) (by simpa using fits)
  rw [unpacked, inOrder_inOrder, pack_toNat (by simpa using fits), bytesToNat_natToBytes]

/-! ### The round trips (R85) -/

theorem twosEnc_twosDec {x : Int} (pos : 1 ≤ n) (fits : n ≤ 64) (lo : -2 ^ (n - 1) ≤ x) (hi : x < 2 ^ (n - 1))
    (hopa : s.opa = wrap 64 x) :
    ∃ t u, exec (.twosEnc n) s = .next t ∧ exec (.twosDec n) { t with opa := t.res } = .next u ∧
      u.res = wrap 64 x ∧ u.err = 0 := by
  refine ⟨_, _, exec_twosEnc s pos fits, exec_twosDec _ pos fits, ?_, rfl⟩
  simp only [opaLow, opaSigned, hopa]
  rw [sext_wrap_register fits lo hi, low_zext fits]
  exact congrArg (wrap 64) (wrap_toInt pos lo hi)

theorem twosDec_twosEnc (pos : 1 ≤ n) (fits : n ≤ 64) :
    ∃ t u, exec (.twosDec n) s = .next t ∧ exec (.twosEnc n) { t with opa := t.res } = .next u ∧
      u.res.toNat = s.opa.toNat % 2 ^ n ∧ u.err = 0 := by
  refine ⟨_, _, exec_twosDec s pos fits, exec_twosEnc _ pos fits, ?_, rfl⟩
  simp only [opaSigned]
  rw [sext_wrap_sext fits, wrap_sext, zext_toNat fits, opaLow, BitVec.toNat_setWidth]

theorem u2b_b2u {s : State} (fits : len ≤ 8) (nonneg : s.opa.toNat < 2 ^ 63) :
    ∃ t u, exec (.u2b len order) s = .next t ∧ exec (.b2u len order) { t with opa := t.res } = .next u ∧
      u.res.toNat = s.opa.toNat % 2 ^ (8 * len) ∧ u.err = 0 :=
  ⟨_, _, exec_u2b_of_lt order len nonneg, exec_b2u order _ len,
    (unpack_packed_toNat order fits _).trans (Nat.mod_mod _ _), rfl⟩

end Sys2Proof.Machine

open Sys2Proof Sys2Proof.Machine Sys2Proof.Stated

/-- Settles O8: the register holds the signed reading of the low `n` bits, whose range is within 64 bits
(`sext_wrap_sext`). -/
theorem twosDecReadsSigned : Obligations.TwosDecReadsSigned := by
  refine ⟨fun n s pos fits => ⟨_, exec_twosDec s pos fits, ?_⟩, fun n s bad => (exec_twos_badWidth bad s).1,
    fun n hn => hasWord_wordNumber (i := .twosDec n) (decide_eq_true hn)⟩
  calc (wrap 64 (sext (opaLow n s))).toInt = sext (opaLow n s) := sext_wrap_sext fits _
    _ = signedField n (opaLow n s).toNat := sext_eq_signedField pos _
    _ = signedField n (s.opa.toNat % 2 ^ n) := by rw [opaLow, BitVec.toNat_setWidth]

/-- Settles O9: wrapping to `n` bits is the value modulo `2^n`, and the zeros above keep it. -/
theorem twosEncWrapsModulo : Obligations.TwosEncWrapsModulo := by
  refine ⟨fun n s pos fits => ⟨_, exec_twosEnc s pos fits, ?_⟩, fun n s bad => (exec_twos_badWidth bad s).2,
    fun n hn => hasWord_wordNumber (i := .twosEnc n) (decide_eq_true hn)⟩
  rw [zext_toNat fits, wrap_toNat, opaSigned_eq_signedField]

/-- Settles O10: the bytes in the order named, summed with the first lowest, are the bytes each at its place
(`sum_place_swap`). -/
theorem b2uSumsTheBytes : Obligations.B2uSumsTheBytes :=
  ⟨fun len order s _ fits => ⟨_, exec_b2u order s len, pack_inOrder_opaBytes order s fits⟩,
    fun len order pos fits => hasWord_wordNumber (i := .b2u len order) (lengthEncodable_iff.2 ⟨pos, fits⟩)⟩

/-- Settles O11: below `2^63` the signed reading of `OPA` is its number, whose bytes are packed; from there on it is negative. -/
theorem u2bWritesTheBytes : Obligations.U2bWritesTheBytes :=
  ⟨fun len order _ _ fits nonneg => ⟨_, exec_u2b_of_lt order len nonneg, pack_inOrder_natToBytes order fits _⟩,
    fun len order _ _ _ negative => exec_u2b_negative order len negative,
    fun len order pos fits => hasWord_wordNumber (i := .u2b len order) (lengthEncodable_iff.2 ⟨pos, fits⟩)⟩

/-- Settles O23: the three round trips, each from the state whose `OPA` holds the operand. -/
theorem integerRoundTrips : Obligations.IntegerRoundTrips := by
  refine ⟨fun n x s pos fits lo hi => twosEnc_twosDec _ pos fits lo (by omega) rfl, fun n p s pos fits hp => ?_,
    fun v len order s hv pos fits => ?_⟩
  · have register : p < 2 ^ 64 := hp.trans_le (Nat.pow_le_pow_right (by decide) fits)
    have trip := twosDec_twosEnc { s with opa := BitVec.ofNat 64 p } pos fits
    simpa only [BitVec.toNat_ofNat, Nat.mod_eq_of_lt register, Nat.mod_eq_of_lt hp] using trip
  · have number : (BitVec.ofNat 64 v).toNat = v := Nat.mod_eq_of_lt (by omega)
    have trip := u2b_b2u (s := { s with opa := BitVec.ofNat 64 v }) order fits (number.trans_lt hv)
    simpa only [number] using trip

/-- Settles O7: an `OP` of 0 selects no row but NOP's, and NOP has one word. -/
theorem nopClearsOnlyErr : Obligations.NopClearsOnlyErr := by
  have word : HasWord .nop 0x0 := hasWord_wordNumber (i := .nop) rfl
  refine ⟨fun _ => rfl, word, fun w op nonzero => decode_of_unselected fun o selected => ?_⟩
  obtain rfl : Op.nop = o :=
    Option.some.inj (all_getElem?_eq_some.2 ((opNumber_of_selects selected).symm.trans op))
  exact nonzero ((word w).1 (decode_of_selects selected))
end

section
/-! Proofs. LINEAR11 decode and encode (spec/41_linear11.md R100 to R103): the two fields of a word as numbers, what each
command answers, the round trip at the word's own exponent, and which words share a value. -/

namespace Sys2Proof.Stated

/-! ### Signed fields (R8) -/

theorem signedField_bounds {n p : Nat} (hn : 0 < n) (hp : p < 2 ^ n) :
    -2 ^ (n - 1) ≤ signedField n p ∧ signedField n p < 2 ^ (n - 1) := by
  have double : 2 ^ n = 2 * 2 ^ (n - 1) := by rw [← pow_succ', Nat.sub_add_cancel hn]
  zify at hp double
  unfold signedField
  split_ifs with top
  · zify at top
    omega
  · zify [not_le] at top
    omega

theorem signedField_emod {n p : Nat} (hp : p < 2 ^ n) : signedField n p % 2 ^ n = p := by
  have number : (p : Int) % 2 ^ n = p := Int.emod_eq_of_lt (by omega) (by exact_mod_cast hp)
  unfold signedField
  split_ifs
  · rw [Int.sub_emod_right, number]
  · exact number

theorem signedField_eq_zero_iff {n p : Nat} (hp : p < 2 ^ n) : signedField n p = 0 ↔ p = 0 := by
  constructor
  · intro h
    have := signedField_emod hp
    rw [h, Int.zero_emod] at this
    omega
  · rintro rfl
    simp [signedField]

/-! ### Rounding (R15) -/

/-- A rational nearest to two neighbours is halfway between them, and only one of them is even. -/
theorem IsRne.not_succ {q : ℚ} {r : Int} (h : IsRne q r) : ¬ IsRne q (r + 1) := by
  rintro ⟨near', tie'⟩
  obtain ⟨near, tie⟩ := h
  have below := (abs_le.1 near).2
  have above := (abs_le.1 near').1
  push_cast at above
  have half : q - r = 1 / 2 := by linarith
  have half' : q - (r + 1 : Int) = -(1 / 2) := by push_cast; linarith
  have even := tie (by rw [half]; norm_num)
  have even' := tie' (by rw [half']; norm_num)
  omega

/-- R15 determines the rounded integer. -/
theorem IsRne.unique {q : ℚ} {r r' : Int} (h : IsRne q r) (h' : IsRne q r') : r = r' := by
  have close : |r - r'| ≤ 1 := by
    have apart : |(r : ℚ) - r'| ≤ 1 :=
      calc |(r : ℚ) - r'| ≤ |r - q| + |q - r'| := abs_sub_le _ _ _
        _ ≤ 1 := by linarith [abs_sub_comm (r : ℚ) q, h.1, h'.1]
    exact_mod_cast apart
  obtain rfl | rfl | rfl : r = r' ∨ r' = r + 1 ∨ r = r' + 1 := by
    have := abs_le.1 close
    omega
  · rfl
  · exact absurd h' h.not_succ
  · exact absurd h h'.not_succ

end Sys2Proof.Stated

namespace Sys2Proof.Machine

open Sys2Proof.Stated

/-! ### The fields of a word (R100) -/

/-- The exponent a LINEAR11 word holds in its bits 15:11. -/
def lin11Exponent (x : Nat) : Int := signedField 5 (bitsOf x 11 5)

/-- The mantissa a LINEAR11 word holds in its bits 10:0. -/
def lin11Mantissa (x : Nat) : Int := signedField 11 (bitsOf x 0 11)

theorem lin11Exponent_bounds (x : Nat) : -16 ≤ lin11Exponent x ∧ lin11Exponent x < 16 :=
  signedField_bounds (by decide) (bitsOf_lt x 11 5)

theorem lin11Mantissa_bounds (x : Nat) : -1024 ≤ lin11Mantissa x ∧ lin11Mantissa x < 1024 :=
  signedField_bounds (by decide) (bitsOf_lt x 0 11)

theorem lin11Exponent_of_lt {x : Nat} (h : x < 65536) : lin11Exponent x = signedField 5 (x / 2048) :=
  congrArg (signedField 5) (Nat.mod_eq_of_lt (by omega))

theorem lin11Mantissa_eq_zero_iff (x : Nat) : lin11Mantissa x = 0 ↔ x % 2048 = 0 := by
  rw [lin11Mantissa, signedField_eq_zero_iff (bitsOf_lt x 0 11), bitsOf]
  omega

/-- The two fields modulo their widths, packed, are the word. -/
theorem pack_lin11Fields (x : Nat) :
    lin11Exponent x % 32 * 2048 + lin11Mantissa x % 2048 = (x % 65536 : Nat) := by
  have exponent : lin11Exponent x % 32 = bitsOf x 11 5 := signedField_emod (bitsOf_lt x 11 5)
  have mantissa : lin11Mantissa x % 2048 = bitsOf x 0 11 := signedField_emod (bitsOf_lt x 0 11)
  rw [exponent, mantissa, bitsOf, bitsOf]
  omega

/-! ### What the commands answer (R100, R101) -/

/-- A field that lies in the low `n` bits is the same field of the whole register. -/
theorem bitsOf_mod_two_pow {n lo len : Nat} (x : Nat) (h : lo + len ≤ n) :
    bitsOf (x % 2 ^ n) lo len = bitsOf x lo len := by
  obtain ⟨k, rfl⟩ := Nat.exists_eq_add_of_le h
  rw [bitsOf, bitsOf, Nat.add_assoc, pow_add, Nat.mod_mul_right_div_self, Nat.mod_mod_of_dvd _ (pow_dvd_pow 2 (by omega))]

theorem sext_opaLow_field {n hi lo : Nat} (s : State) (h : lo + (hi - lo + 1) ≤ n) :
    sext ((opaLow n s).extractLsb hi lo) = signedField (hi - lo + 1) (bitsOf s.opa.toNat lo (hi - lo + 1)) := by
  rw [sext_eq_signedField (by omega), toNat_extractLsb_eq_bitsOf, opaLow, BitVec.toNat_setWidth, bitsOf_mod_two_pow _ h]

/-- The binary64 pattern of a word's value. -/
def lin11Pattern (x : Nat) : DWord := f64Enc ⟨lin11Mantissa x, lin11Exponent x⟩

theorem exec_lin11Dec (s : State) :
    exec .lin11Dec s =
      .next { s with
        res := lin11Pattern s.opa.toNat, rese := wrap 32 (lin11Exponent s.opa.toNat),
        resm := wrap 32 (lin11Mantissa s.opa.toNat), err := 0 } := by
  rw [exec, execLin11Dec, sext_opaLow_field s (by decide), sext_opaLow_field s (by decide)]
  rfl

/-- A word's value is exact in binary64, and a zero mantissa gives +0.0. -/
theorem lin11Pattern_encodes (x : Nat) :
    EncodesF64 (lin11Pattern x) ((lin11Mantissa x : ℚ) * 2 ^ lin11Exponent x) := by
  obtain ⟨mlo, mhi⟩ := lin11Mantissa_bounds x
  obtain ⟨elo, ehi⟩ := lin11Exponent_bounds x
  exact (binary64EncodeIsExact _ _ mlo (by omega) elo (by omega)).1

theorem toInt_wrap_lin11Exponent (x : Nat) : (wrap 32 (lin11Exponent x)).toInt = lin11Exponent x := by
  obtain ⟨lo, hi⟩ := lin11Exponent_bounds x
  exact wrap_toInt (by decide) (by omega) (by omega)

theorem toInt_wrap_lin11Mantissa (x : Nat) : (wrap 32 (lin11Mantissa x)).toInt = lin11Mantissa x := by
  obtain ⟨lo, hi⟩ := lin11Mantissa_bounds x
  exact wrap_toInt (by decide) (by omega) (by omega)

theorem value_mulPow2 (q : Scaled) (k : Int) : (q.mulPow2 k).value = q.value * 2 ^ k := by
  rw [Scaled.value, Scaled.value, Scaled.mulPow2, zpow_add₀ two_ne_zero, mul_assoc]

/-- The word LIN11_ENC packs from an exponent and a rounded mantissa (R101). -/
def lin11Packed (e y : Int) : DWord := zext 64 (wrap 5 e ++ wrap 11 y)

theorem lin11Packed_toNat (e y : Int) : ((lin11Packed e y).toNat : Int) = e % 32 * 2048 + y % 2048 := by
  rw [lin11Packed, zext_toNat (by decide), toNat_append_eq]
  push_cast
  rw [wrap_toNat, wrap_toNat]
  rfl

/-- A finite operand is scaled exactly and rounded once; whatever the rounded mantissa is, the command succeeds. -/
theorem exec_lin11Enc_of_finite (e : Int) {s : State} (h : f64Finite s.opa) :
    ∃ y, IsRne (f64Rat s.opa * 2 ^ (-e)) y ∧
      exec (.lin11Enc e) s =
        .next { s with
          res := lin11Packed e y, rese := wrap 32 e, resm := wrap 32 (sext (wrap 11 y)), err := 0 } := by
  obtain ⟨q, hq, value⟩ := f64Val_of_finite h
  refine ⟨rne (q.mulPow2 (-e)), ?_, ?_⟩
  · rw [← value, ← value_mulPow2]
    exact isRne_rne _
  · rw [exec, execLin11Enc, opaReal, hq]
    rfl

theorem exec_lin11Enc_of_not_finite (e : Int) {s : State} (h : ¬ f64Finite s.opa) :
    exec (.lin11Enc e) s = .next (recordError .nonfinite s) := by
  rw [exec, execLin11Enc, opaReal, f64Val_of_not_finite h, finish_error]

/-- The mantissa LIN11_ENC reports is the one its word decodes to. -/
theorem toInt_wrap_sext_mantissa (y : Int) :
    (wrap 32 (sext (wrap 11 y))).toInt = signedField 11 (y % 2048).toNat := by
  have lo := sext_lower (wrap 11 y)
  have hi := sext_upper (wrap 11 y)
  have field : (wrap 11 y).toNat = (y % 2048).toNat := by
    have := wrap_toNat 11 y
    omega
  rw [wrap_toInt (by decide) (by omega) (by omega), sext_eq_signedField (by decide), field]

/-! ### The round trip (R102) -/

/-- A word's value scaled back by the word's own exponent is the mantissa itself, so rounding keeps it. -/
theorem exec_lin11Enc_lin11Pattern {x : Nat} {s : State} (hopa : s.opa = lin11Pattern x) :
    ∃ u, exec (.lin11Enc (lin11Exponent x)) s = .next u ∧ u.res.toNat = x % 65536 ∧ u.err = 0 := by
  obtain ⟨finite, value, -⟩ := lin11Pattern_encodes x
  rw [← hopa] at finite value
  obtain ⟨y, rounded, run⟩ := exec_lin11Enc_of_finite (lin11Exponent x) finite
  rw [value, mul_assoc, ← zpow_add₀ two_ne_zero, add_neg_cancel, zpow_zero, mul_one] at rounded
  obtain rfl : y = lin11Mantissa x := rounded.unique (isRne_intCast _)
  have packed := lin11Packed_toNat (lin11Exponent x) (lin11Mantissa x)
  rw [pack_lin11Fields] at packed
  exact ⟨_, run, Int.ofNat_inj.1 packed, rfl⟩

theorem lin11Dec_lin11Enc (s : State) :
    ∃ t u, exec .lin11Dec s = .next t ∧
      exec (.lin11Enc (lin11Exponent s.opa.toNat)) { t with opa := t.res } = .next u ∧
      u.res.toNat = s.opa.toNat % 65536 ∧ u.err = 0 := by
  obtain ⟨t, run, res⟩ : ∃ t, exec .lin11Dec s = .next t ∧ t.res = lin11Pattern s.opa.toNat :=
    ⟨_, exec_lin11Dec s, rfl⟩
  obtain ⟨u, trip⟩ := exec_lin11Enc_lin11Pattern (s := { t with opa := t.res }) res
  exact ⟨t, u, run, trip⟩

/-! ### Words of one value (R103) -/

theorem eq_of_lin11Fields_eq {x x' : Nat} (hx : x < 65536) (hx' : x' < 65536)
    (exponent : lin11Exponent x = lin11Exponent x') (mantissa : lin11Mantissa x = lin11Mantissa x') : x = x' := by
  have packed := pack_lin11Fields x
  rw [exponent, mantissa, pack_lin11Fields] at packed
  omega

/-- R103's word for 1.0 with mantissa `2^k`: its exponent is `-k`. -/
def wordOfOne (k : Nat) : Nat := (32 - k) % 32 * 2048 + 2 ^ k

theorem wordOfOne_fields :
    ∀ k < 10, wordOfOne k < 65536 ∧ lin11Exponent (wordOfOne k) = -k ∧ lin11Mantissa (wordOfOne k) = 2 ^ k := by
  decide

theorem lin11Pattern_wordOfOne : ∀ k < 10, lin11Pattern (wordOfOne k) = 0x3FF0000000000000 := by decide

theorem f64Rat_one : f64Rat 0x3FF0000000000000 = 1 := by
  obtain ⟨-, value, -⟩ := lin11Pattern_encodes (wordOfOne 0)
  obtain ⟨-, exponent, mantissa⟩ := wordOfOne_fields 0 (by decide)
  rw [lin11Pattern_wordOfOne 0 (by decide), exponent, mantissa] at value
  simpa using value

/-- A product `m * 2^e` of 1 is a power of two against its own exponent. -/
theorem eq_two_pow_of_scaled_eq_one {m e : Int} (h : (m : ℚ) * 2 ^ e = 1) : ∃ k : Nat, e = -k ∧ m = 2 ^ k := by
  obtain ⟨k, rfl | rfl⟩ := e.eq_nat_or_neg
  · have product : (2 : Int) ^ k * m = 1 := by rw [mul_comm]; exact_mod_cast h
    have power : (2 : Int) ^ k = 1 := Int.eq_one_of_dvd_one (by positivity) ⟨m, product.symm⟩
    rw [power, one_mul] at product
    obtain rfl : k = 0 := by
      by_contra positive
      exact (one_lt_pow₀ (by decide) positive).ne' power
    exact ⟨0, rfl, product⟩
  · refine ⟨k, rfl, ?_⟩
    rw [zpow_neg, zpow_natCast, mul_inv_eq_one₀ (by positivity)] at h
    exact_mod_cast h

/-- The words of 1.0: an 11-bit mantissa that is a power of two is one of the first ten. -/
theorem lin11Pattern_eq_one_iff {x : Nat} (hx : x < 65536) :
    lin11Pattern x = 0x3FF0000000000000 ↔ ∃ k < 10, wordOfOne k = x := by
  constructor
  · intro one
    obtain ⟨-, value, -⟩ := lin11Pattern_encodes x
    rw [one, f64Rat_one] at value
    obtain ⟨k, exponent, mantissa⟩ := eq_two_pow_of_scaled_eq_one value.symm
    have small : (2 : Int) ^ k < 2 ^ 10 := mantissa ▸ (lin11Mantissa_bounds x).2
    have hk : k < 10 := (pow_lt_pow_iff_right₀ (by decide)).1 small
    obtain ⟨fits, exponent', mantissa'⟩ := wordOfOne_fields k hk
    exact ⟨k, hk, eq_of_lin11Fields_eq fits hx (exponent'.trans exponent.symm) (mantissa'.trans mantissa.symm)⟩
  · rintro ⟨k, hk, rfl⟩
    exact lin11Pattern_wordOfOne k hk

theorem lin11Pattern_eq_zero_iff (x : Nat) : lin11Pattern x = 0 ↔ x % 2048 = 0 := by
  obtain ⟨-, value, zero⟩ := lin11Pattern_encodes x
  rw [← lin11Mantissa_eq_zero_iff]
  constructor
  · intro pattern
    obtain ⟨-, ratZero, -⟩ := f64Enc_encodes_zero 0
    have product : (lin11Mantissa x : ℚ) * 2 ^ lin11Exponent x = 0 := by rw [← value, pattern]; exact ratZero
    exact_mod_cast (mul_eq_zero_iff_right (by positivity)).1 product
  · intro mantissa
    exact zero (by rw [mantissa, Int.cast_zero, zero_mul])

/-- What LIN11_DEC leaves for a 16-bit word in `OPA`. -/
theorem results_of_lin11Dec {x : Nat} {s t : State} (hx : x < 65536)
    (run : exec .lin11Dec { s with opa := BitVec.ofNat 64 x } = .next t) :
    t.res = lin11Pattern x ∧ t.rese = wrap 32 (lin11Exponent x) ∧ t.resm = wrap 32 (lin11Mantissa x) := by
  have number : (BitVec.ofNat 64 x).toNat = x := Nat.mod_eq_of_lt (by omega)
  rw [exec_lin11Dec, number] at run
  cases run
  exact ⟨rfl, rfl, rfl⟩

theorem wrap_lin11Exponent_inj {x x' : Nat} (h : wrap 32 (lin11Exponent x) = wrap 32 (lin11Exponent x')) :
    lin11Exponent x = lin11Exponent x' := by
  rw [← toInt_wrap_lin11Exponent, h, toInt_wrap_lin11Exponent]

theorem wrap_lin11Mantissa_inj {x x' : Nat} (h : wrap 32 (lin11Mantissa x) = wrap 32 (lin11Mantissa x')) :
    lin11Mantissa x = lin11Mantissa x' := by
  rw [← toInt_wrap_lin11Mantissa, h, toInt_wrap_lin11Mantissa]

end Sys2Proof.Machine

open Sys2Proof Sys2Proof.Machine Sys2Proof.Stated

/-- Settles O12: the two fields of `OPA` read as signed numbers are in the decoder's ranges, where encoding is exact. -/
theorem lin11DecIsExact : Obligations.Lin11DecIsExact := by
  refine ⟨fun s => ⟨_, _, _, exec_lin11Dec s, toInt_wrap_lin11Exponent _, toInt_wrap_lin11Mantissa _, ?_⟩,
    hasWord_wordNumber (i := .lin11Dec) rfl⟩
  rw [toInt_wrap_lin11Exponent, toInt_wrap_lin11Mantissa]
  exact lin11Pattern_encodes _

/-- Settles O13: a finite operand is scaled exactly, rounded once and wrapped; only a non-finite one has no value. -/
theorem lin11EncRoundsAndWraps : Obligations.Lin11EncRoundsAndWraps := by
  refine ⟨fun e s lo hi finite => ?_, fun e s _ _ => exec_lin11Enc_of_not_finite e,
    fun e lo hi => hasWord_wordNumber (i := .lin11Enc e) (exponentEncodable_iff.2 ⟨lo, hi⟩)⟩
  obtain ⟨y, rounded, run⟩ := exec_lin11Enc_of_finite e finite
  exact ⟨y, _, _, _, rounded, run, lin11Packed_toNat e y, wrap_toInt (by decide) (by omega) (by omega),
    toInt_wrap_sext_mantissa y⟩

/-- Settles O24: the round trip of `lin11Dec_lin11Enc`, from the state whose `OPA` holds the word. -/
theorem lin11RoundTrip : Obligations.Lin11RoundTrip := by
  intro wd s hwd
  have number : (BitVec.ofNat 64 wd).toNat = wd := Nat.mod_eq_of_lt (by omega)
  have trip := lin11Dec_lin11Enc { s with opa := BitVec.ofNat 64 wd }
  simpa only [number, Nat.mod_eq_of_lt hwd, lin11Exponent_of_lt hwd] using trip

/-- Settles O25: 1.0 is `2^k * 2^-k` only, with `k` below 10, 0 has a zero mantissa only, and `RESE` and `RESM` hold the two
fields, which are the word. -/
theorem nonCanonicalWords : Obligations.NonCanonicalWords := by
  refine ⟨fun wd s t hwd run => ?_, fun wd wd' s s' t t' hwd hwd' run run' sameRese sameResm => ?_⟩
  · obtain ⟨res, -, -⟩ := results_of_lin11Dec hwd run
    rw [res, lin11Pattern_eq_one_iff hwd, lin11Pattern_eq_zero_iff]
    have printed : [0x0001, 0xF802, 0xF004, 0xE808, 0xE010, 0xD820, 0xD040, 0xC880, 0xC100, 0xBA00] =
        (List.range 10).map wordOfOne := rfl
    rw [printed]
    simp only [List.mem_map, List.mem_range, and_self]
  · obtain ⟨-, rese, resm⟩ := results_of_lin11Dec hwd run
    obtain ⟨-, rese', resm'⟩ := results_of_lin11Dec hwd' run'
    rw [rese, rese'] at sameRese
    rw [resm, resm'] at sameResm
    exact eq_of_lin11Fields_eq hwd hwd' (wrap_lin11Exponent_inj sameRese) (wrap_lin11Mantissa_inj sameResm)
end

section
/-! Proofs. VOUT_MODE exponent, ULINEAR16 decode and encode (spec/42_ulinear16.md R120 to R125): where rounding meets an even
bound, what each command answers, which values the encoder accepts, and how far from them the decoder's value is. -/

namespace Sys2Proof.Stated

/-! ### Rounding at the bounds and at a scale (R124, R125) -/

/-- The half below an even integer rounds up to it, so the rounded value is at or above that integer from the half on. -/
theorem IsRne.le_iff_of_even {q : ℚ} {n r : Int} (h : IsRne q r) (even : n % 2 = 0) : n ≤ r ↔ n - 1 / 2 ≤ q := by
  obtain ⟨near, tie⟩ := h
  obtain ⟨lower, upper⟩ := abs_le.1 near
  constructor
  · intro reached
    have : (n : ℚ) ≤ r := by exact_mod_cast reached
    linarith
  · intro above
    by_contra! below
    have close : n ≤ r + 1 := by
      have : (n : ℚ) ≤ r + 1 := by linarith
      exact_mod_cast this
    obtain rfl : n = r + 1 := by omega
    have half : q - r = 1 / 2 := by
      push_cast at above
      linarith
    have := tie (by rw [half]; norm_num)
    omega

/-- 0 and 65536 are even, so the values that round into 16 bits start at the half below the one and end before the half below
the other. -/
theorem IsRne.fits_iff {e y : Int} {v : ℚ} (h : IsRne (v * 2 ^ (-e)) y) :
    (0 ≤ y ∧ y ≤ 65535) ↔ -(1 / 2) * (2 : ℚ) ^ e ≤ v ∧ v < 131071 / 2 * (2 : ℚ) ^ e := by
  have scale : (0 : ℚ) < 2 ^ e := by positivity
  rw [zpow_neg, ← div_eq_mul_inv] at h
  have bottom : 0 ≤ y ↔ -(1 / 2) * (2 : ℚ) ^ e ≤ v := by
    rw [h.le_iff_of_even rfl, le_div_iff₀ scale]
    norm_num
  have top : y ≤ 65535 ↔ v < 131071 / 2 * (2 : ℚ) ^ e := by
    rw [← not_iff_not, not_le, not_lt, ← Int.add_one_le_iff, h.le_iff_of_even rfl, le_div_iff₀ scale]
    norm_num
  rw [bottom, top]

/-- Rounding in units of `2^e` moves a value by at most half a unit. -/
theorem IsRne.abs_scaled_sub_le {e y : Int} {v : ℚ} (h : IsRne (v * 2 ^ (-e)) y) :
    |y * 2 ^ e - v| ≤ (2 : ℚ) ^ (e - 1) := by
  have units : v - y * 2 ^ e = (v * 2 ^ (-e) - y) * 2 ^ e := by
    rw [sub_mul, mul_assoc, ← zpow_add₀ two_ne_zero, neg_add_cancel, zpow_zero, mul_one]
  calc |y * 2 ^ e - v| = |v * 2 ^ (-e) - y| * 2 ^ e := by
        rw [abs_sub_comm, units, abs_mul, abs_of_pos (by positivity : (0 : ℚ) < 2 ^ e)]
    _ ≤ 1 / 2 * 2 ^ e := by gcongr; exact h.1
    _ = 2 ^ (e - 1) := by rw [zpow_sub_one₀ two_ne_zero]; ring

end Sys2Proof.Stated

namespace Sys2Proof.Machine

open Sys2Proof.Stated

/-! ### What the decoders answer (R120, R122) -/

theorem exec_vmodeDec (s : State) :
    exec .vmodeDec s =
      .next { s with res := wrap 64 (sext (opaLow 5 s)), rese := wrap 32 (sext (opaLow 5 s)), err := 0 } := rfl

/-- A signed reading wrapped to a register at least as wide is its sign extension, and reads as the same number. -/
theorem toInt_wrap_sext_opaLow {n w : Nat} (pos : 0 < n) (fits : n ≤ w) (s : State) :
    (wrap w (sext (opaLow n s))).toInt = signedField n (s.opa.toNat % 2 ^ n) :=
  calc (wrap w (sext (opaLow n s))).toInt = sext (opaLow n s) := BitVec.toInt_signExtend_of_le fits
    _ = signedField n (opaLow n s).toNat := sext_eq_signedField pos _
    _ = signedField n (s.opa.toNat % 2 ^ n) := by rw [opaLow, BitVec.toNat_setWidth]

/-- The binary64 pattern of a ULINEAR16 word's value at an exponent. -/
def ulin16Pattern (e : Int) (raw : Nat) : DWord := f64Enc ⟨raw, e⟩

theorem exec_ulin16Dec (e : Int) (s : State) :
    exec (.ulin16Dec e) s =
      .next { s with
        res := ulin16Pattern e (s.opa.toNat % 65536), rese := wrap 32 e, resm := zext 32 (opaLow 16 s), err := 0 } := by
  rw [exec, execUlin16Dec, opaLow, BitVec.toNat_setWidth]
  rfl

/-- A 16-bit word's value is exact in binary64, and 0 gives +0.0. -/
theorem ulin16Pattern_encodes {e : Int} {raw : Nat} (lo : -16 ≤ e) (hi : e ≤ 15) (fits : raw < 65536) :
    EncodesF64 (ulin16Pattern e raw) ((raw : ℚ) * 2 ^ e) :=
  (binary64EncodeIsExact raw e (by omega) (by omega) lo hi).1

/-! ### What the encoder answers (R123) -/

/-- The state ULIN16_ENC leaves once the operand is rounded to `y`. -/
def ulin16Encoded (e y : Int) (s : State) : State :=
  if y < 0 then recordError .negative s
  else if 65535 < y then recordError .range s
  else { s with res := wrap 64 y, rese := wrap 32 e, resm := wrap 32 y, err := 0 }

theorem ulin16Encoded_of_negative (e : Int) {y : Int} (negative : y < 0) (s : State) :
    ulin16Encoded e y s = recordError .negative s := if_pos negative

theorem ulin16Encoded_of_large (e : Int) {y : Int} (large : 65535 < y) (s : State) :
    ulin16Encoded e y s = recordError .range s := by
  rw [ulin16Encoded, if_neg (by omega), if_pos large]

theorem ulin16Encoded_of_fits (e : Int) {y : Int} (lo : 0 ≤ y) (hi : y ≤ 65535) (s : State) :
    ulin16Encoded e y s = { s with res := wrap 64 y, rese := wrap 32 e, resm := wrap 32 y, err := 0 } := by
  rw [ulin16Encoded, if_neg lo.not_gt, if_neg hi.not_gt]

theorem ulin16Encoded_err_eq_zero_iff (e y : Int) (s : State) :
    (ulin16Encoded e y s).err = 0 ↔ 0 ≤ y ∧ y ≤ 65535 := by
  obtain negative | large | fits : y < 0 ∨ 65535 < y ∨ (0 ≤ y ∧ y ≤ 65535) := by omega
  · rw [ulin16Encoded_of_negative e negative]
    exact iff_of_false (code_ne_zero .negative) (by omega)
  · rw [ulin16Encoded_of_large e large]
    exact iff_of_false (code_ne_zero .range) (by omega)
  · rw [ulin16Encoded_of_fits e fits.1 fits.2]
    exact iff_of_true rfl fits

/-- A finite operand is scaled exactly and rounded once; the rounded value decides the rest. -/
theorem exec_ulin16Enc_of_finite (e : Int) {s : State} (h : f64Finite s.opa) :
    ∃ y, IsRne (f64Rat s.opa * 2 ^ (-e)) y ∧ exec (.ulin16Enc e) s = .next (ulin16Encoded e y s) := by
  obtain ⟨q, hq, value⟩ := f64Val_of_finite h
  refine ⟨rne (q.mulPow2 (-e)), ?_, ?_⟩
  · rw [← value, ← value_mulPow2]
    exact isRne_rne _
  · simp only [exec, execUlin16Enc, opaReal, hq, ulin16Encoded]
    split_ifs <;> rfl

theorem exec_ulin16Enc_of_not_finite (e : Int) {s : State} (h : ¬ f64Finite s.opa) :
    exec (.ulin16Enc e) s = .next (recordError .nonfinite s) := by
  rw [exec, execUlin16Enc, opaReal, f64Val_of_not_finite h, finish_error]

theorem wrap_toNat_of_lt {n : Nat} {x : Int} (lo : 0 ≤ x) (hi : x < 2 ^ n) : ((wrap n x).toNat : Int) = x := by
  rw [wrap_toNat, Int.emod_eq_of_lt lo hi]

/-! ### Encode, then decode (R125) -/

/-- The word ULIN16_ENC leaves for a rounded value that fits decodes to exactly that many units. -/
theorem exec_ulin16Dec_of_encoded {e y : Int} (elo : -16 ≤ e) (ehi : e ≤ 15) (lo : 0 ≤ y) (hi : y ≤ 65535) {t : State}
    (hopa : t.opa = wrap 64 y) :
    ∃ u, exec (.ulin16Dec e) t = .next u ∧ u.err = 0 ∧ f64Finite u.res ∧ f64Rat u.res = y * 2 ^ e := by
  have word : (t.opa.toNat : Int) = y := by rw [hopa, wrap_toNat_of_lt lo (by omega)]
  have raw : ((t.opa.toNat % 65536 : Nat) : Int) = y := by omega
  obtain ⟨finite, value, -⟩ := ulin16Pattern_encodes elo ehi (Nat.mod_lt t.opa.toNat (by decide))
  refine ⟨_, exec_ulin16Dec e t, rfl, finite, value.trans ?_⟩
  rw [← raw, Int.cast_natCast]

end Sys2Proof.Machine

open Sys2Proof Sys2Proof.Machine Sys2Proof.Stated

/-- Settles O14: both registers are wider than the five bits, so each holds their signed reading whole. -/
theorem vmodeDecReadsLowFiveBits : Obligations.VmodeDecReadsLowFiveBits :=
  ⟨fun s => ⟨_, _, exec_vmodeDec s, toInt_wrap_sext_opaLow (by decide) (by decide) s,
    toInt_wrap_sext_opaLow (by decide) (by decide) s⟩, hasWord_wordNumber (i := .vmodeDec) rfl⟩

/-- Settles O15: a 16-bit word at an exponent of the field is in the range where encoding is exact. -/
theorem ulin16DecIsExact : Obligations.Ulin16DecIsExact := by
  refine ⟨fun e s lo hi => ⟨_, _, _, exec_ulin16Dec e s, wrap_toInt (by decide) (by omega) (by omega), ?_,
      ulin16Pattern_encodes lo hi (Nat.mod_lt _ (by decide))⟩,
    fun e lo hi => hasWord_wordNumber (i := .ulin16Dec e) (exponentEncodable_iff.2 ⟨lo, hi⟩)⟩
  rw [zext_toNat (by decide), opaLow, BitVec.toNat_setWidth]

/-- Settles O16: the rounded value is determined, and the state it leaves is `ulin16Encoded`, case by case. -/
theorem ulin16EncRoundsOrFails : Obligations.Ulin16EncRoundsOrFails := by
  refine ⟨fun e y s elo ehi finite rounded => ?_, fun e s _ _ => exec_ulin16Enc_of_not_finite e,
    fun e lo hi => hasWord_wordNumber (i := .ulin16Enc e) (exponentEncodable_iff.2 ⟨lo, hi⟩)⟩
  obtain ⟨y', rounded', run⟩ := exec_ulin16Enc_of_finite e finite
  obtain rfl := rounded'.unique rounded
  rw [run]
  refine ⟨fun lo hi => ?_, fun negative => ?_, fun large => ?_⟩
  · rw [ulin16Encoded_of_fits e lo hi]
    exact ⟨_, _, _, rfl, wrap_toNat_of_lt lo (by omega), wrap_toInt (by decide) (by omega) (by omega),
      wrap_toNat_of_lt lo (by omega)⟩
  · rw [ulin16Encoded_of_negative e negative]
    rfl
  · rw [ulin16Encoded_of_large e large]
    rfl

/-- Settles O26: `ERR` is 0 exactly when the rounded value fits, and `IsRne.fits_iff` says of which operands that holds. -/
theorem ulin16AcceptedInputs : Obligations.Ulin16AcceptedInputs := by
  intro e s _ _ finite
  obtain ⟨y, rounded, run⟩ := exec_ulin16Enc_of_finite e finite
  refine ⟨_, run, fun y' rounded' => ?_, ?_⟩
  · rw [rounded'.unique rounded, ulin16Encoded_err_eq_zero_iff]
  · rw [ulin16Encoded_err_eq_zero_iff, rounded.fits_iff]

/-- Settles O27: an accepted operand is rounded to a number of units `2^e` that fits 16 bits and decodes exactly. -/
theorem ulin16HalfUnitApproximation : Obligations.Ulin16HalfUnitApproximation := by
  intro e s t elo ehi finite run accepted
  obtain ⟨y, rounded, run'⟩ := exec_ulin16Enc_of_finite e finite
  obtain rfl : ulin16Encoded e y s = t := Host.Outcome.next.inj (run'.symm.trans run)
  obtain ⟨lo, hi⟩ := (ulin16Encoded_err_eq_zero_iff e y s).1 accepted
  have word : (ulin16Encoded e y s).res = wrap 64 y := by rw [ulin16Encoded_of_fits e lo hi]
  obtain ⟨u, decoded, succeeds, finite', value⟩ :=
    exec_ulin16Dec_of_encoded (t := { ulin16Encoded e y s with opa := (ulin16Encoded e y s).res }) elo ehi lo hi word
  refine ⟨u, decoded, succeeds, finite', ?_⟩
  rw [value]
  exact rounded.abs_scaled_sub_le
end

section
/-! Proofs. The CRC8 PEC calculator (spec/43_crc8_pec.md R140 to R144): the table, what CRC_CLR and CRC_UPD answer, feeding in
pieces, and why one changed byte changes the CRC. -/

namespace Sys2Proof.Machine

open Sys2Proof.Stated

/-! ### The table (R140) -/

theorem pecShift_toNat (c : Byte) : (pecShift c).toNat = crcShift c.toNat := by
  have top : c.msb = true ↔ bitsOf c.toNat 7 1 = 1 := by rw [BitVec.msb_eq_getLsbD_last, getLsbD_iff_bitsOf]
  have shifted : (c <<< 1).toNat = 2 * c.toNat % 256 := by
    rw [BitVec.toNat_shiftLeft, Nat.shiftLeft_eq, pow_one, Nat.mul_comm]
  unfold pecShift crcShift
  simp only [top]
  split_ifs
  · rw [BitVec.toNat_xor, shifted]
    rfl
  · exact shifted

theorem pecTable_toNat (i : Byte) :
    (pecTable i).toNat =
      crcShift (crcShift (crcShift (crcShift (crcShift (crcShift (crcShift (crcShift i.toNat))))))) := by
  simp only [pecTable, pecShift_toNat]

theorem pecTable_eq_printedEntry : ∀ i : Byte, pecTable i = printedEntry i := by decide +kernel

theorem pecStep_eq_printedEntry (c b : Byte) : pecStep c b = printedEntry (c ^^^ b) := pecTable_eq_printedEntry _

theorem pecTable_injective : Function.Injective pecTable := fun a b h => by
  simp only [pecTable] at h
  iterate 8 replace h := pecShift_injective _ _ h
  exact h

theorem pecStep_self (c : Byte) : pecStep c c = 0 := by
  rw [pecStep, BitVec.xor_self]
  rfl

/-! ### Feeding (R142) -/

theorem bytesOf_succ (x : DWord) (len : Nat) : bytesOf (len + 1) x = bytesOf len x ++ [byteAt x len] := by
  rw [bytesOf, List.range_succ, List.map_append]
  rfl

/-- The bytes of the register above the first `a` are those of the register shifted down. -/
theorem bytesOf_add {x y : DWord} {a : Nat} (shifted : y.toNat = x.toNat / 2 ^ (8 * a)) (b : Nat) :
    bytesOf (a + b) x = bytesOf a x ++ bytesOf b y := by
  have byte (i : Nat) : byteAt x (a + i) = byteAt y i := BitVec.eq_of_toNat_eq <| by
    rw [byteAt_toNat, byteAt_toNat, shifted, Nat.div_div_eq_div_mul, ← pow_add, Nat.mul_add]
  rw [bytesOf, List.range_add, List.map_append, List.map_map]
  exact congrArg _ (List.map_congr_left fun i _ => byte i)

theorem pecLoop_eq_pecFeed (x : DWord) (len : Nat) (c : Byte) : pecLoop x len c = pecFeed c (bytesOf len x) := by
  induction len with
  | zero => rfl
  | succ len ih =>
    have byte : BitVec.ofNat 8 (opaByte x len) = byteAt x len := by
      rw [← byteAt_eq_opaByte, BitVec.ofNat_toNat, BitVec.setWidth_eq]
    rw [pecLoop, ih, byte, bytesOf_succ, pecFeed_append, ← pecStep_eq_printedEntry]
    rfl

/-! ### What the commands answer (R141, R142) -/

theorem exec_crcClr (s : State) : exec .crcClr s = .next { s with crc := 0, res := 0, err := 0 } := rfl

/-- The state CRC_UPD leaves once the CRC is `c`. -/
def crcFed (c : Byte) (s : State) : State := { s with crc := c, res := zext 64 c, err := 0 }

theorem exec_crcUpd (len : Nat) (seed : Bool) (s : State) :
    exec (.crcUpd len seed) s = .next (crcFed (pecFeed (if seed then 0 else s.crc) (bytesOf len s.opa)) s) := rfl

/-- A byte equal to `CRC` leaves 0 (R142). -/
theorem exec_crcUpd_own_crc {s : State} (own : s.opa.toNat % 256 = s.crc.toNat) :
    exec (.crcUpd 1 false) s = .next { s with crc := 0, res := 0, err := 0 } := by
  have byte : byteAt s.opa 0 = s.crc := BitVec.eq_of_toNat_eq <| by
    rw [byteAt_toNat, Nat.mul_zero, pow_zero, Nat.div_one, own]
  have fed : pecFeed s.crc (bytesOf 1 s.opa) = 0 := by
    calc pecFeed s.crc (bytesOf 1 s.opa) = pecStep s.crc (byteAt s.opa 0) := rfl
      _ = 0 := by rw [byte, pecStep_self]
  rw [exec_crcUpd, if_neg Bool.false_ne_true, fed]
  rfl

/-- CRC_CLR leaves what feeding no byte into the seed 0 would leave (R141). -/
theorem step_crcClr {rest : List HostEvent} {s : State} (hr : s.resetAsserted = false)
    (hp : s.pending = execCmd .crcClr ++ rest) : ∃ t : State, step s = .next t ∧ Fed 0 rest s t :=
  ⟨_, (step_exec hr hp (decode_encode (i := .crcClr) rfl)).trans (exec_crcClr _),
    rfl, rfl, rfl, rfl, rfl, rfl, rfl, rfl⟩

/-- CRC_CLR, then any chunks: the running CRC starts at 0 (R141). -/
theorem run_crcClr_chunks {chunks : List (List Byte)} {rest : List HostEvent} {s : State}
    (hlen : ∀ chunk ∈ chunks, lengthEncodable chunk.length = true) (hr : s.resetAsserted = false)
    (hp : s.pending = execCmd .crcClr ++ chunks.flatMap (pecChunk false) ++ rest) :
    ∃ t : State, core.run (1 + 3 * chunks.length) s = .next t ∧ t.crc = crc8Pec chunks.flatten ∧ t.pending = rest := by
  rw [List.append_assoc] at hp
  obtain ⟨t, ht, cleared⟩ := step_crcClr hr hp
  obtain ⟨u, hu, fed⟩ := run_laterChunks hlen hr cleared
  exact ⟨u, by rw [Nat.add_comm, run_succ _ ht, hu], fed.crc, fed.pending⟩

/-! ### Changed bytes (R144) -/

theorem pecStep_left_injective (b : Byte) : Function.Injective (pecStep · b) :=
  fun _ _ h => (BitVec.xor_left_inj b).1 (pecTable_injective h)

theorem pecStep_right_injective (c : Byte) : Function.Injective (pecStep c) :=
  fun _ _ h => (BitVec.xor_right_inj c).1 (pecTable_injective h)

/-- Feeding the same bytes never brings two different CRCs together. -/
theorem pecFeed_injective (bs : List Byte) : Function.Injective (pecFeed · bs) := by
  induction bs with
  | nil => exact fun _ _ h => h
  | cons b bs ih => exact fun _ _ h => pecStep_left_injective b (ih h)

/-- One byte changed in any way changes the CRC: the CRCs part at that byte and never meet again. -/
theorem crc8Pec_set_ne {message : List Byte} {k : Nat} (h : k < message.length) {v : Byte} (changed : v ≠ message[k]) :
    crc8Pec (message.set k v) ≠ crc8Pec message := by
  intro same
  have parts : message = message.take k ++ message[k] :: message.drop (k + 1) := by
    rw [List.cons_getElem_drop_succ, List.take_append_drop]
  rw [List.set_eq_take_append_cons_drop, if_pos h, crc8Pec, crc8Pec, pecFeed_append] at same
  conv_rhs at same => rw [parts, pecFeed_append]
  exact changed (pecStep_right_injective _ (pecFeed_injective _ same))

theorem flipBit_ne (v : Byte) {b : Nat} (hb : b < 8) : v ^^^ (1#8 <<< b) ≠ v := by
  intro same
  have zero : 1#8 <<< b = 0#8 := (BitVec.xor_right_inj v).1 (same.trans BitVec.xor_zero.symm)
  have bit := congrArg (BitVec.getLsbD · b) zero
  simp [hb] at bit

end Sys2Proof.Machine

open Sys2Proof Sys2Proof.Machine Sys2Proof.Stated

/-- Settles O30: a flipped bit changes its byte, and a changed byte changes the CRC (`crc8Pec_set_ne`), because a table
look-up loses nothing. -/
theorem singleBitErrorsAreDetected : Obligations.SingleBitErrorsAreDetected :=
  fun _ _ _ h hb => crc8Pec_set_ne h (flipBit_ne _ hb)

/-- Settles O18: R142's loop is the model's feed (`pecLoop_eq_pecFeed`); a zero byte fed into 0 is a byte equal to `CRC`. -/
theorem crcUpdFeedsTheBytes : Obligations.CrcUpdFeedsTheBytes := by
  refine ⟨fun len seed s _ _ => ?_,
    fun len seed pos fits => hasWord_wordNumber (i := .crcUpd len seed) (lengthEncodable_iff.2 ⟨pos, fits⟩),
    fun a b seed x s _ _ _ shifted => ⟨_, _, _, exec_crcUpd a seed s, exec_crcUpd b false _, exec_crcUpd (a + b) seed s, ?_⟩,
    fun s => exec_crcUpd_own_crc, fun s byte crc => exec_crcUpd_own_crc (byte.trans crc.symm)⟩
  · rw [pecLoop_eq_pecFeed]
    exact ⟨_, exec_crcUpd len seed s, zext_toNat (by decide) _⟩
  · simp only [crcFed, Bool.false_eq_true, if_false]
    rw [bytesOf_add shifted, pecFeed_append]

/-- Settles O17: after CRC_CLR the running CRC is the seed 0, which is what `S` feeds into. -/
theorem crcClrZeroes : Obligations.CrcClrZeroes :=
  ⟨exec_crcClr, hasWord_wordNumber (i := .crcClr) rfl,
    fun _ _ _ hlen hr hp => run_crcClr_chunks (fun c hc => lengthEncodable_iff.2 (hlen c hc)) hr hp,
    fun _ s _ _ => ⟨_, exec_crcClr s, rfl⟩⟩

/-- Settles O28: the chunks feed the bytes of the whole message into the seed 0 (`run_pecChunks`). -/
theorem pecOfChunksIsTheMessagesCrc : Obligations.PecOfChunksIsTheMessagesCrc := by
  refine ⟨fun chunks rest s hne hlen hr hp => ?_, fun s => ⟨_, exec_crcClr s, rfl, rfl⟩⟩
  obtain ⟨t, ht, fed⟩ := run_pecChunks hne (fun c hc => lengthEncodable_iff.2 (hlen c hc)) hr hp
  exact ⟨t, ht, fed.crc, by rw [fed.res, fed.crc], fed.err, fed.sticky, fed.rese, fed.resm, fed.pending⟩

/-- Settles O19: entry by entry the model's table is the printed one, and its entries are those of the algorithm
(`pecTable_toNat`). -/
theorem pecTableIsThePrintedTable : Obligations.PecTableIsThePrintedTable := by
  refine ⟨by decide +kernel, fun i => ?_, pecTable_eq_printedEntry, fun message => ?_⟩
  · rw [← pecTable_eq_printedEntry, pecTable_toNat]
  · simp only [crc8Pec, pecFeed, ← pecStep_eq_printedEntry]
end

section
/-! Proofs. Command errors (spec/60_exceptions.md R170 to R174): with which codes a command may fail, and which register writes
clear `STICKY` or change `ERR`. -/

namespace Sys2Proof.Machine

open Sys2Proof.Stated

/-! ### The codes of a command (R171, R173) -/

theorem zero_mem_possibleCodes (i : Instr) : 0 ∈ possibleCodes i := by
  cases i <;> exact List.mem_cons_self

/-- What a command decides to record, if it fails, is an error R171 lists for it. -/
theorem exec_listed_error (i : Instr) (s : State) :
    ∃ r, exec i s = finish r s ∧ ∀ e, r = .error e → e.code.toNat ∈ possibleCodes i := by
  cases i with
  | nop | b2u | lin11Dec | ulin16Dec | vmodeDec | crcClr | crcUpd => exact ⟨.ok _, rfl, nofun⟩
  | twosDec | twosEnc | u2b =>
    refine ⟨_, rfl, fun e he => ?_⟩
    split_ifs at he
    cases he; simp [possibleCodes, CmdError.code]
  | lin11Enc =>
    refine ⟨_, rfl, fun e he => ?_⟩
    split at he <;> cases he
    simp [possibleCodes, CmdError.code]
  | ulin16Enc =>
    refine ⟨_, rfl, fun e he => ?_⟩
    split at he
    · cases he; simp [possibleCodes, CmdError.code]
    · dsimp only at he
      split_ifs at he <;> cases he <;> simp [possibleCodes, CmdError.code]

/-! ### Which register writes touch the flags (R174) -/

/-- `STICKY` is cleared only by a write of STATUS with bit 8 set. -/
theorem Reg.write_clears_sticky {r : Reg} {v : Word} {s t : State} (h : r.write v s = .next t) (before : s.sticky = true)
    (after : t.sticky = false) : r = .status ∧ v.getLsbD 8 = true := by
  obtain ⟨-, i, w, -, -, rfl⟩ | ⟨-, e, rfl⟩ | ⟨status, rfl⟩ | ⟨-, rfl⟩ | ⟨-, rfl⟩ | rfl := Reg.write_cases h
  · exact absurd (before.symm.trans after) nofun
  · exact absurd after nofun
  · exact ⟨status, by simpa [before] using after⟩
  · exact absurd (before.symm.trans after) nofun
  · exact absurd (before.symm.trans after) nofun
  · exact absurd (before.symm.trans after) nofun

/-- `ERR` changes only by a CMD write. -/
theorem Reg.write_changes_err {r : Reg} {v : Word} {s t : State} (h : r.write v s = .next t) (hne : t.err ≠ s.err) :
    r = .cmd := by
  obtain ⟨cmd, -⟩ | ⟨cmd, -⟩ | ⟨-, rfl⟩ | ⟨-, rfl⟩ | ⟨-, rfl⟩ | rfl := Reg.write_cases h
  · exact cmd
  · exact cmd
  · exact absurd (writeStatus_err s v) hne
  · exact absurd rfl hne
  · exact absurd rfl hne
  · exact absurd rfl hne

end Sys2Proof.Machine

open Sys2Proof Sys2Proof.Machine Sys2Proof.Stated

/-- Settles O31: the write stores the word, and the command then commits results, which `STICKY` and `OPA` are not, or records
an error, whose code is not 0. -/
theorem errorsAreRecordedAndNothingElse : Obligations.ErrorsAreRecordedAndNothingElse := by
  intro w rest s hr hp
  obtain ⟨t, ht, cases⟩ := writeCmd_next w { s with pending := rest, responses := .written :: s.responses }
  refine ⟨t, (step_wr (r := .cmd) hr hp).trans ht, ?_⟩
  obtain ⟨i, d, -, -, rfl⟩ | ⟨e, rfl⟩ := cases
  · exact .inl ⟨rfl, rfl, rfl, rfl⟩
  · exact .inr ⟨code_ne_zero e, rfl⟩

/-- Settles O32: a command ends with `ERR` 0 or the code of an error R171 lists for it (`exec_listed_error`). -/
theorem commandsFailOnlyWithTheirCodes : Obligations.CommandsFailOnlyWithTheirCodes := by
  refine ⟨fun i s => ?_, fun w e s h => writeCmd_of_illegal h s⟩
  obtain ⟨r, hr, listed⟩ := exec_listed_error i s
  cases r with
  | ok d => exact ⟨_, hr, zero_mem_possibleCodes i⟩
  | error e => exact ⟨_, hr, listed e rfl⟩

/-- Settles O42: of the events of a step only a register write and a reset touch the block's fields (`step_changes`), and of
the registers only STATUS clears `STICKY` and only CMD changes `ERR`. -/
theorem statusIsClearedOnlyAsStated : Obligations.StatusIsClearedOnlyAsStated := by
  refine fun s t h => ⟨fun before after => ?_, fun changed => ?_⟩
  · have changed : t.sticky ≠ s.sticky := by simp [before, after]
    obtain ⟨ev, rest, hp, ⟨r, v, rfl, hw⟩ | hreset⟩ := step_changes State.sticky (fun _ _ _ _ _ => rfl) h changed
    · obtain ⟨rfl, bit⟩ := Reg.write_clears_sticky hw before after
      exact ⟨_, rest, hp, .inl ⟨v, rfl, (getLsbD_iff_bitsOf v 8).1 bit⟩⟩
    · exact ⟨ev, rest, hp, .inr hreset⟩
  · obtain ⟨ev, rest, hp, ⟨r, v, rfl, hw⟩ | hreset⟩ := step_changes State.err (fun _ _ _ _ _ => rfl) h changed
    · obtain rfl := Reg.write_changes_err hw changed
      exact ⟨_, rest, hp, .inl ⟨v, rfl⟩⟩
    · exact ⟨ev, rest, hp, .inr hreset⟩
end

section
/-! Proofs. Reset, the platform's duty and the ends of runs (spec/70_reset_and_hazards.md R190 to R199): which bits of `OPA` a
command reads, that every command completes, what a step of a platform that keeps off during reset answers, and how reset and
software reach the values of R33. -/

namespace Sys2Proof.Machine

open Sys2Proof.Stated

/-! ### The bits of `OPA` a command reads (R195) -/

section OperandBits

variable {s : State} {x : DWord}

/-- Two values of `OPA` that agree on the low `n` bits are the same `n`-bit operand. -/
theorem opaLow_withOpa {n : Nat} (h : s.opa.toNat % 2 ^ n = x.toNat % 2 ^ n) :
    opaLow n { s with opa := x } = opaLow n s :=
  BitVec.eq_of_toNat_eq <| by rw [opaLow, opaLow, BitVec.toNat_setWidth, BitVec.toNat_setWidth, h]

/-- Two values of `OPA` that agree on the low `8 len` bits give the same `len` bytes. -/
theorem opaBytes_withOpa {len : Nat} (h : s.opa.toNat % 2 ^ (8 * len) = x.toNat % 2 ^ (8 * len)) :
    opaBytes len { s with opa := x } = opaBytes len s := by
  refine List.map_congr_left fun i hi => BitVec.eq_of_toNat_eq ?_
  have inside : 8 * i + 8 ≤ 8 * len := by
    have := List.mem_range.1 hi
    omega
  rw [byteAt_eq_opaByte, byteAt_eq_opaByte, opaByte, opaByte, ← bitsOf_mod_two_pow s.opa.toNat inside, h,
    bitsOf_mod_two_pow x.toNat inside]

/-- Two values of `OPA` that agree on all 64 bits are one. -/
theorem opa_eq_of_mod_eq (h : s.opa.toNat % 2 ^ 64 = x.toNat % 2 ^ 64) : s.opa = x := by
  rwa [Nat.mod_eq_of_lt s.opa.isLt, Nat.mod_eq_of_lt x.isLt, BitVec.toNat_inj] at h

/-- A command decides the same from two values of `OPA` that agree on the bits R195 lists for it. -/
theorem exec_same_decision_of_operandBits {i : Instr}
    (h : s.opa.toNat % 2 ^ operandBits i = x.toNat % 2 ^ operandBits i) :
    ∃ r, exec i s = finish r s ∧ exec i { s with opa := x } = finish r { s with opa := x } := by
  cases i with
  | nop | crcClr => exact ⟨.ok _, rfl, rfl⟩
  | twosDec n => exact ⟨_, rfl, by rw [exec, execTwosDec, opaLow_withOpa (n := n) h]⟩
  | lin11Dec => exact ⟨.ok _, rfl, by rw [exec, execLin11Dec, opaLow_withOpa (n := 16) h]⟩
  | ulin16Dec e => exact ⟨.ok _, rfl, by rw [exec, execUlin16Dec, opaLow_withOpa (n := 16) h]⟩
  | vmodeDec => exact ⟨.ok _, rfl, by rw [exec, execVmodeDec, opaLow_withOpa (n := 5) h]⟩
  | b2u len order => exact ⟨.ok _, rfl, by rw [exec, execB2u, opaBytes_withOpa (len := len) h]⟩
  | crcUpd len seed => exact ⟨.ok _, rfl, by rw [exec, execCrcUpd, opaBytes_withOpa (len := len) h]⟩
  | twosEnc | u2b | lin11Enc | ulin16Enc =>
    obtain rfl := opa_eq_of_mod_eq h
    exact exec_same_decision rfl fun _ _ => rfl

end OperandBits

/-- Ending a command commutes with changing `OPA`. -/
theorem finish_withOpa (r : Except CmdError Results) (s : State) (x : DWord) :
    ∃ t, finish r s = .next t ∧ finish r { s with opa := x } = .next { t with opa := x } := by
  cases r with
  | ok w => exact ⟨_, rfl, rfl⟩
  | error e => exact ⟨_, rfl, rfl⟩

/-! ### Steps and runs of a platform that keeps off during reset (R190, R198, R199) -/

/-- A step takes an event the platform may issue off the list, and the reset level follows the event. -/
theorem step_allowed {ev : HostEvent} {rest : List HostEvent} {s : State} (hp : s.pending = ev :: rest)
    (allowed : eventAllowed s.resetAsserted ev = true) :
    ∃ t, step s = .next t ∧ t.resetAsserted = resetAfter s.resetAsserted ev ∧ t.pending = rest := by
  obtain ⟨t, ht, level⟩ := handle_next (s := { s with pending := rest }) allowed
  exact ⟨t, (step_of_pending hp).trans ht, level, handle_keeps_pending ht⟩

/-- A step of a platform that keeps its duty answers a next state, and the events left keep the duty there. -/
theorem step_keepsOff {s : State} (duty : platformKeepsOff s.resetAsserted s.pending = true) :
    ∃ t, step s = .next t ∧ t.pending = s.pending.tail ∧ platformKeepsOff t.resetAsserted t.pending = true := by
  cases hp : s.pending with
  | nil => exact ⟨s, step_idle hp, hp, duty⟩
  | cons ev rest =>
    rw [hp, platformKeepsOff, Bool.and_eq_true] at duty
    obtain ⟨allowed, later⟩ := duty
    obtain ⟨t, ht, level, left⟩ := step_allowed hp allowed
    exact ⟨t, ht, left, by rw [level, left, later]⟩

/-- A run of `k` steps of such a platform takes the `k` oldest events off the list. -/
theorem run_keepsOff (k : Nat) {s : State} (duty : platformKeepsOff s.resetAsserted s.pending = true) :
    ∃ t : State, core.run k s = .next t ∧ t.pending = s.pending.drop k := by
  induction k generalizing s with
  | zero => exact ⟨s, rfl, rfl⟩
  | succ k ih =>
    obtain ⟨u, hu, tail, later⟩ := step_keepsOff duty
    obtain ⟨t, ht, left⟩ := ih later
    refine ⟨t, (run_succ k hu).trans ht, ?_⟩
    rw [left, tail, ← List.drop_one, List.drop_drop, Nat.add_comm]

/-! ### Reset after a CMD write (R191) -/

/-- However late reset comes after a CMD write, the step ends in the reset state, with one answer more. -/
theorem step_cmdWriteThenReset {v : Word} {delay : Nat} {rest : List HostEvent} {s : State}
    (hr : s.resetAsserted = false) (hp : s.pending = .cmdWriteThenReset v delay :: rest) :
    ∃ r k, step s = .next (assertReset { s with pending := rest, responses := r :: s.responses, openCount := k }) := by
  obtain ⟨t, ht, -⟩ := step_allowed hp (by rw [hr]; rfl)
  obtain ⟨idle, -⟩ | ⟨ev, rest', hp', cases⟩ := step_cases ht
  · cases hp.symm.trans idle
  · cases hp.symm.trans hp'
    obtain ⟨_, _, ⟨⟩, _⟩ | ⟨_, _, ⟨⟩, _⟩ | ⟨⟨⟩, _⟩ | ⟨⟨⟩, _⟩ | ⟨_, _, r, k, -, -, rfl⟩ := cases
    exact ⟨r, k, ht⟩

/-! ### Commands that reach the reset values (R190) -/

/-- `exec C` ends as the command `C` does in the state that holds its word. -/
theorem step_execCmd {i : Instr} {rest : List HostEvent} {s t : State} (hi : i.wellFormed = true)
    (hr : s.resetAsserted = false) (hp : s.pending = execCmd i ++ rest)
    (h : exec i (afterCmdWrite (encode i) rest s) = .next t) : step s = .next t :=
  (step_exec hr hp (decode_encode hi)).trans h

/-- `clr.sticky` clears `STICKY` (R174). -/
theorem step_clrSticky {rest : List HostEvent} {s : State} (hr : s.resetAsserted = false)
    (hp : s.pending = clrSticky ++ rest) :
    step s = .next { s with pending := rest, responses := .written :: s.responses, sticky := false } :=
  (step_wr (r := .status) hr hp).trans rfl

/-- LIN11_DEC of 0x0000 zeroes the three result registers it writes. -/
theorem exec_lin11Dec_zero {s : State} (hopa : s.opa = 0) :
    exec .lin11Dec s = .next { s with res := 0, rese := 0, resm := 0, err := 0 } := by
  have zero : lin11Pattern 0 = 0 := (lin11Pattern_eq_zero_iff 0).2 rfl
  calc exec .lin11Dec s
      = .next { s with
          res := lin11Pattern 0, rese := wrap 32 (lin11Exponent 0), resm := wrap 32 (lin11Mantissa 0), err := 0 } := by
        rw [exec_lin11Dec, hopa]; rfl
    _ = .next { s with res := 0, rese := 0, resm := 0, err := 0 } := by rw [zero]; rfl

end Sys2Proof.Machine

open Sys2Proof Sys2Proof.Machine Sys2Proof.Stated

/-- Settles O57: the oldest event is allowed, so it is handled, and the duty says that the later ones keep off at the level it
leaves (`step_keepsOff`). -/
theorem platformDutyIsKeptByEveryStep : Obligations.PlatformDutyIsKeptByEveryStep := by
  intro s duty
  obtain ⟨t, ht, -, later⟩ := step_keepsOff duty
  exact ⟨t, ht, later⟩

/-- Settles O34: the command decides the same from both values (`exec_same_decision_of_operandBits`), and no end of a command
touches `OPA`. -/
theorem commandsReadOnlyTheirOperandBits : Obligations.CommandsReadOnlyTheirOperandBits := by
  intro i s x agree
  obtain ⟨r, hs, hx⟩ := exec_same_decision_of_operandBits agree
  rw [hs, hx]
  exact finish_withOpa r s x

/-- Settles O50: the step ends in `assertReset` of the state with the one answer recorded, abandoned or completed. -/
theorem resetDuringACommandAbandonsIt : Obligations.ResetDuringACommandAbandonsIt := by
  intro v delay rest s hr hp
  obtain ⟨r, k, h⟩ := step_cmdWriteThenReset hr hp
  exact ⟨_, r, h, fieldsReset_assertReset _, rfl, rfl, rfl⟩

/-- Settles O51: an access during reset is refused before its address is looked at; released, the same access is an event the
platform may issue. -/
theorem accessesDuringResetAreRefused : Obligations.AccessesDuringResetAreRefused := by
  refine ⟨fun a rest s hr hp => ?_, fun a rest s hp => ?_⟩
  · exact (step_of_pending hp).trans (if_pos hr)
  · obtain ⟨u, hu, -⟩ := step_allowed (ev := .access a) (rest := rest)
      (s := { s with resetAsserted := false, pending := .access a :: rest }) rfl rfl
    exact ⟨_, u, step_of_pending hp, rfl, hu⟩

/-- Settles O52: CRC_CLR zeroes `CRC`, LIN11_DEC of the zeroed `OPA` the other results, `clr.sticky` `STICKY`, and NOP `ERR` and
`CMD`, its word being 0. -/
theorem softwareReachesTheResetValues : Obligations.SoftwareReachesTheResetValues := by
  intro rest s hr hp
  simp only [List.append_assoc] at hp
  have run :=
    calc core.run 6 s
      _ = core.run 5 _ := run_succ 5 (step_execCmd rfl hr hp (exec_crcClr _))
      _ = core.run 3 _ := run_add 2 3 (run_ldOpa (x := 0) hr rfl)
      _ = core.run 2 _ := run_succ 2 (step_execCmd (i := .lin11Dec) rfl hr rfl (exec_lin11Dec_zero rfl))
      _ = core.run 1 _ := run_succ 1 (step_clrSticky hr rfl)
      _ = core.run 0 _ := run_succ 0 (step_execCmd (i := .nop) rfl hr rfl rfl)
  exact ⟨_, run, ⟨rfl, rfl, rfl, rfl, rfl, rfl, rfl, rfl⟩, rfl⟩

/-- Settles O55: the command ends by committing results or by recording an error, and neither touches `CMD` or `OPA`. -/
theorem everyCommandCompletes : Obligations.EveryCommandCompletes := by
  intro i s
  obtain ⟨r, hr⟩ := exec_is_finish i s
  obtain ⟨t, ht, ⟨w, -, rfl⟩ | ⟨e, -, rfl⟩⟩ := finish_next r s
  · exact ⟨_, hr.trans ht, rfl, rfl⟩
  · exact ⟨_, hr.trans ht, rfl, rfl⟩

/-- Settles O56: a run of any number of steps takes that many events off the list (`run_keepsOff`), so one step for each event
leaves none. -/
theorem everyRunReachesItsEnd : Obligations.EveryRunReachesItsEnd := by
  refine fun s duty => ⟨?_, fun k => ?_⟩
  · obtain ⟨t, ht, left⟩ := run_keepsOff s.pending.length duty
    exact ⟨t, ht, left.trans List.drop_length⟩
  · obtain ⟨t, ht, -⟩ := run_keepsOff k duty
    exact ⟨t, ht⟩
end
